-- ==== Sys2Proof/Word.lean ====
section
/-! DEFINITION. The two word types of the block: 8-bit bytes and 16-bit unsigned words (R8, R9). -/

namespace Sys2Proof

/-- One octet of the inbound stream or of an outbound command (R8, R41). -/
abbrev Byte := BitVec 8

/-- A 16-bit unsigned field, length or checksum (R8). No value of the block is signed (R9). -/
abbrev Word16 := BitVec 16

/-- A Reading: `NFIELDS` unsigned 16-bit fields in index order (R19). How many there are depends on the
variant, so the count is a condition of well-formedness, not of the type. -/
abbrev Reading := List Word16

end Sys2Proof
end

