-- ==== Sys2Proof/Config.lean ====
section
/-! DEFINITION. The elaboration-time parameters of a block (R5, R7, R25). Nothing a run does changes them.
What follows from them (capacity, expected length, number of fields) is in Machine/Params.lean. -/

namespace Sys2Proof

/-- The frame variant (R5): `v32` is normative; `v30` is the optional one of R38 and R94. -/
inductive Variant where
  | v32
  | v30
  deriving DecidableEq, Repr

/-- The parameters the spec leaves to the realisation (R5, R7). A model takes each as an argument: every
operation below takes the configuration as data, so a statement about every state is a statement about every
configuration. -/
structure Config where
  /-- `VARIANT` (R5). -/
  variant : Variant
  /-- `TS_W`, the width in bits of a timestamp (R7): open. -/
  tsW : Nat
  /-- `NO_DATA_TS`, the sentinel timestamp (R7, R22): a `TS_W`-bit value. -/
  noDataTs : Nat
  /-- `N_READERS`, the number of snapshot ports (R7): open. -/
  nReaders : Nat
  /-- `OP_MODE`, the opcode of the mode-control command (R7, R111): open. -/
  opMode : Byte
  deriving DecidableEq, Repr

/-- The constraints R7 puts on the parameters. -/
abbrev Config.wf (c : Config) : Bool :=
  decide (1 ≤ c.tsW) && decide (c.noDataTs < 2 ^ c.tsW) && decide (1 ≤ c.nReaders)

end Sys2Proof
end

