-- ==== Sys2Proof/Machine/Params.lean ====
section
/-! DEFINITION. What follows from the parameters (R6), what is fixed and no parameter (R8), and the
configuration that `State.reset` carries (notes/assumptions/2.md). -/

namespace Sys2Proof

/-- `SYNC1`, the first start byte (R8, R56). -/
def sync1 : Byte := 0x42

/-- `SYNC2`, the second start byte (R8, R56). -/
def sync2 : Byte := 0x4D

/-- `OP_SLEEP`, the sleep-control opcode (R8, R64, R110). -/
def opSleep : Byte := 0xE4

/-- `CAP`, the frame capacity in bytes (R6). -/
def Config.cap (c : Config) : Nat :=
  match c.variant with
  | .v32 => 32
  | .v30 => 30

/-- `NFIELDS`, the number of body words of a Reading (R6). -/
def Config.nfields (c : Config) : Nat :=
  match c.variant with
  | .v32 => 13
  | .v30 => 12

/-- `LEN_EXPECTED`, the only accepted length value: `CAP − 4` (R6, R62). -/
def Config.lenExpected (c : Config) : Word16 :=
  match c.variant with
  | .v32 => 0x001C
  | .v30 => 0x001A

/-- The value the `TS_W`-bit port `now` carries when the host's clock shows `t`: its low `TS_W` bits (R49,
R127). DESIGN CHOICE, notes/assumptions/3.md: a clock value that fits is carried unchanged. -/
def Config.portNow (c : Config) (t : Nat) : Nat := t % 2 ^ c.tsW

/-- The configuration of `State.reset`. V32 is the spec's default (R5) and 0 its default sentinel (R7). The
other three are open and no statement rests on them (notes/assumptions/2.md): `TS_W` = 32 is the suggested
value (DESIGN CHOICE), `N_READERS` = 16 is a DESIGN CHOICE, `OP_MODE` = 0xE1 is PRESUMED, the general-knowledge
value that 93_implementation_defined.md G1 allows as a test value. -/
def Config.default : Config :=
  { variant := .v32, tsW := 32, noDataTs := 0, nReaders := 16, opMode := 0xE1 }

end Sys2Proof
end

