-- ==== Sys2Proof/Machine/Memory.lean ====
section
/-! DEFINITION. The accumulator as the block's only byte-addressed space (R36), and the values assembled from
its bytes (R10, R65). -/

namespace Sys2Proof.Machine

/-- The accumulator's architectural content, `acc[0 .. off−1]`, as "a list of bytes of length `off`" (R16). The
byte at address `k` is the list's `k`-th, in arrival order (R31). Addresses at or above the length are stale: they
are no state, so two equal accumulators are equal lists and no default byte is needed. -/
abbrev Memory := List Byte

/-- `be16(h, l)` (R10): the high byte is the one at the lower offset (R32). -/
def be16 (h l : Byte) : Word16 := (h.setWidth 16 <<< 8) ||| l.setWidth 16

/-- The additive checksum of a byte sequence: bytes zero-extended, the sum taken modulo 65536 (R10, R89). -/
def byteSum : List Byte → Word16
  | [] => 0
  | b :: bs => b.setWidth 16 + byteSum bs

/-- The big-endian words of a byte sequence, two bytes each (R32, R34). -/
def beWords : List Byte → List Word16
  | h :: l :: rest => be16 h l :: beWords rest
  | _ => []

/-- The two bytes of a word, high byte first (R32, R33). -/
def wordBytes (w : Word16) : List Byte := [w.extractLsb' 8 8, w.extractLsb' 0 8]

namespace Memory

/-- `acc[i]` (R10): there is a byte to read only for `i < off` (R16). -/
def read (m : Memory) (i : Nat) : Option Byte := m[i]?

/-- `MemRead(a, 2)` (R10), the only width used. -/
def read16 (m : Memory) (a : Nat) : Option Word16 :=
  match m.read a, m.read (a + 1) with
  | some h, some l => some (be16 h l)
  | _, _ => none

/-- `sum16(i, j)` (R10). -/
def sum16 (m : Memory) (i j : Nat) : Word16 := byteSum ((m.drop i).take (j + 1 - i))

/-- What `Push(b)` leaves in the accumulator (R10): `acc[off] <- b; off <- off + 1`. -/
def push (m : Memory) (b : Byte) : Memory := m ++ [b]

/-- What `Clear()` leaves in it (R10): nothing. -/
def clear : Memory := []

/-- The resting form of the accumulator: `off` is at most `CAP − 1` between steps (R14). -/
abbrev wf (c : Config) (m : Memory) : Bool := decide (m.length < c.cap)

/-- `be16(acc[2], b) = LEN_EXPECTED`, the condition of R79, for a block at `off` = 3. -/
def lengthMatches (c : Config) (m : Memory) (b : Byte) : Bool :=
  match m.read 2 with
  | some h => be16 h b == c.lenExpected
  | none => false

/-- VALIDATE's comparison on a full accumulator (R86): the received checksum is the computed one (R58). -/
def checksumMatches (c : Config) (m : Memory) : Bool :=
  m.read16 (c.cap - 2) == some (m.sum16 0 (c.cap - 3))

/-- The Reading that R87 decodes from a full accumulator: the `NFIELDS` words from offset 4 on, so that field
`i` is `be16(acc[4 + 2i], acc[5 + 2i])` (R59). -/
def decodeReading (c : Config) (m : Memory) : Reading := beWords ((m.drop 4).take (2 * c.nfields))

end Memory

/-- The well-formed frame that carries the fields `fs` (R55, R71; R38 for V30): start marker, length, body words
and the big-endian sum of all that stands before it. -/
def frame (c : Config) (fs : Reading) : List Byte :=
  let head := sync1 :: sync2 :: (wordBytes c.lenExpected ++ fs.flatMap wordBytes)
  head ++ wordBytes (byteSum head)

end Sys2Proof.Machine
end

