-- ==== Sys2Proof/Syntax.lean ====
section
/-! DEFINITION. The transactions of the block, one constructor per row of the opcode map (R69). The block has
no stored program: these are its "instructions" (R18). -/

namespace Sys2Proof

/-- One row of R69. A byte operand is the `rx_byte` of the step; a row whose byte is fixed carries none. What
else selects a row (the phase, the length, the checksum) is no operand: it is `Instr.selected`. -/
inductive Instr where
  /-- `RST` (R135). -/
  | rst
  /-- `IDLE` (R83). -/
  | idle
  /-- `RX.SYNC1_HIT` (R74): the byte is 0x42. -/
  | rxSync1Hit
  /-- `RX.SYNC1_MISS` (R75). -/
  | rxSync1Miss (b : Byte)
  /-- `RX.SYNC2_HIT` (R76): the byte is 0x4D. -/
  | rxSync2Hit
  /-- `RX.SYNC2_MISS` (R77). -/
  | rxSync2Miss (b : Byte)
  /-- `RX.LEN_HI` (R78). -/
  | rxLenHi (b : Byte)
  /-- `RX.LEN_LO_OK` (R79). -/
  | rxLenLoOk (b : Byte)
  /-- `RX.LEN_LO_BAD` (R80). -/
  | rxLenLoBad (b : Byte)
  /-- `RX.BODY` (R81). -/
  | rxBody (b : Byte)
  /-- `RX.LAST_OK` (R82, R86, R87), with the clock value `now` of its step: the only row that reads it (R127). -/
  | rxLastOk (b : Byte) (now : Nat)
  /-- `RX.LAST_BAD` (R82, R86, R88). -/
  | rxLastBad (b : Byte)
  /-- `UPDATE` (R99): internal, issued by `RX.LAST_OK` only. -/
  | update (r : Reading) (t : Nat)
  /-- `SNAP r` (R101). -/
  | snap (r : Nat)
  /-- `ENC op, dl, dh` (R108). -/
  | enc (op dl dh : Byte)
  /-- `WAKE` (R110), short for `ENC 0xE4, 0x01, 0x00`. -/
  | wake
  /-- `SETMODE a` (R111), short for `ENC OP_MODE, a, 0x00`. -/
  | setmode (active : Bool)
  deriving DecidableEq, Repr

end Sys2Proof
end

