-- ==== Sys2Proof/Machine/Operands.lean ====
section
/-! DEFINITION. The phase of the synchronizer (R15), the full condition that selects each row of R69, and the
names of the V32 fields (R19). -/

namespace Sys2Proof.Machine

/-- The phases of R15. `validate` is no resting phase: it is the action inside `RX.LAST_OK` and `RX.LAST_BAD`
(R30). -/
inductive Phase where
  | seekStart1
  | seekStart2
  | readLength
  | readBody
  | validate
  deriving DecidableEq, Repr

/-- `phase(off)` (R15). -/
def phase (c : Config) (off : Nat) : Phase :=
  if off = 0 then .seekStart1
  else if off = 1 then .seekStart2
  else if off ≤ 3 then .readLength
  else if off < c.cap then .readBody
  else .validate

/-- The names of the V32 fields (R19). The V30 fields have none (91_not_in_source.md N6). -/
inductive V32Field where
  | pm10Std
  | pm25Std
  | pm100Std
  | pm10Atm
  | pm25Atm
  | pm100Atm
  | cnt03
  | cnt05
  | cnt10
  | cnt25
  | cnt50
  | cnt100
  | reserved
  deriving DecidableEq, Repr

/-- The index of a named field (R19). -/
def V32Field.index : V32Field → Nat
  | .pm10Std => 0
  | .pm25Std => 1
  | .pm100Std => 2
  | .pm10Atm => 3
  | .pm25Atm => 4
  | .pm100Atm => 5
  | .cnt03 => 6
  | .cnt05 => 7
  | .cnt10 => 8
  | .cnt25 => 9
  | .cnt50 => 10
  | .cnt100 => 11
  | .reserved => 12

/-- A named field of a V32 Reading. -/
def readField (r : Reading) (f : V32Field) : Option Word16 := r[f.index]?

end Sys2Proof.Machine

namespace Sys2Proof

/-- The "selected by" column of R69 for a block whose accumulator is `m`: the phase before the step and the
condition on the byte, the length or the checksum. `RST` and `IDLE` apply in every state (R95), `UPDATE` wherever it
is issued (R99), and the readers and the encoder do not look at the synchronizer (R103, R107). -/
def Instr.selected (c : Config) (m : Machine.Memory) : Instr → Bool
  | .rst => true
  | .idle => true
  | .rxSync1Hit => Machine.phase c m.length == .seekStart1
  | .rxSync1Miss b => Machine.phase c m.length == .seekStart1 && b != sync1
  | .rxSync2Hit => Machine.phase c m.length == .seekStart2
  | .rxSync2Miss b => Machine.phase c m.length == .seekStart2 && b != sync2
  | .rxLenHi _ => m.length == 2
  | .rxLenLoOk b => m.length == 3 && m.lengthMatches c b
  | .rxLenLoBad b => m.length == 3 && !m.lengthMatches c b
  | .rxBody _ => Machine.phase c m.length == .readBody && decide (m.length ≤ c.cap - 2)
  | .rxLastOk b _ => m.length == c.cap - 1 && (m.push b).checksumMatches c
  | .rxLastBad b => m.length == c.cap - 1 && !(m.push b).checksumMatches c
  | .update _ _ => true
  | .snap _ => true
  | .enc _ _ _ => true
  | .wake => true
  | .setmode _ => true

/-- The byte of an RX row (R73): `none` for a row that takes no byte. -/
def Instr.rxByte : Instr → Option Byte
  | .rst => none
  | .idle => none
  | .rxSync1Hit => some sync1
  | .rxSync1Miss b => some b
  | .rxSync2Hit => some sync2
  | .rxSync2Miss b => some b
  | .rxLenHi b => some b
  | .rxLenLoOk b => some b
  | .rxLenLoBad b => some b
  | .rxBody b => some b
  | .rxLastOk b _ => some b
  | .rxLastBad b => some b
  | .update _ _ => none
  | .snap _ => none
  | .enc _ _ _ => none
  | .wake => none
  | .setmode _ => none

end Sys2Proof
end

