-- ==== Sys2Proof/WellFormed.lean ====
section
/-! DEFINITION. Which operands a row of R69 admits, whatever the state. -/

namespace Sys2Proof

/-- The operand conditions of R69's rows: a missed start byte is not the start byte (R75, R77); an accepted
low length byte is the expected one, whatever the high byte is (R79, R91); a timestamp is a `TS_W`-bit value
and a Reading has `NFIELDS` fields (R7, R99); a reader index is below `N_READERS` (R101). Every other operand is
free: the encoder's are all legal (R112). -/
def Instr.wf (c : Config) : Instr → Bool
  | .rst => true
  | .idle => true
  | .rxSync1Hit => true
  | .rxSync1Miss b => b != sync1
  | .rxSync2Hit => true
  | .rxSync2Miss b => b != sync2
  | .rxLenHi _ => true
  | .rxLenLoOk b => b == c.lenExpected.setWidth 8
  | .rxLenLoBad _ => true
  | .rxBody _ => true
  | .rxLastOk _ now => decide (now < 2 ^ c.tsW)
  | .rxLastBad _ => true
  | .update r t => decide (r.length = c.nfields) && decide (t < 2 ^ c.tsW)
  | .snap r => decide (r < c.nReaders)
  | .enc _ _ _ => true
  | .wake => true
  | .setmode _ => true

end Sys2Proof
end

