-- ==== Sys2Proof/Decode.lean ====
section
/-! DEFINITION. The decoder of R69's selector words, total and rejecting by name, and the encoder written from the
same rows. `S` (R69): bit 14 `rst`, bit 13 `rx_valid`, bits 12:8 `off` before the step, bits 7:0 `rx_byte`. `E` (R69):
bits 23:16 `cmd_op`, bits 15:8 `cmd_dl`, bits 7:0 `cmd_dh`. -/

namespace Sys2Proof

open Machine (Memory)

/-- What selects one row: the word of its format, with the inputs that R69 puts beside the word. -/
inductive Selector where
  /-- A `STEP` row: the word `S` (its 15 bits in a 16-bit container), the accumulator that the row's condition reads,
  and the clock value on the port `now`. -/
  | step (w : BitVec 16) (acc : Memory) (now : Nat)
  /-- An `ENC` row: the word `E`. -/
  | enc (w : BitVec 24)
  /-- The `READ` row: reader `r` samples its port. -/
  | reader (r : Nat)
  deriving DecidableEq, Repr

/-- Why the decoder gives no row. None of these arises in a step of a well-formed state (R95). -/
inductive DecodeReject where
  /-- Bit 15 is set: `S` has 15 bits (R69). -/
  | unusedBit15
  /-- The word's `off` is not the accumulator's (R14, R16). -/
  | offsetMismatch
  /-- `off` is `CAP` or more, which no resting state has (R14, R30). -/
  | offsetBeyondCapacity
  deriving DecidableEq, Repr

/-- The word `S` of R69. -/
def stepWord (rst rxValid : Bool) (off : BitVec 5) (b : Byte) : BitVec 16 :=
  (0 : BitVec 1) ++ BitVec.ofBool rst ++ BitVec.ofBool rxValid ++ off ++ b

/-- `S[14]`, the port `rst`. -/
def stepRst (w : BitVec 16) : Bool := w.getLsbD 14

/-- `S[13]`, the port `rx_valid`. -/
def stepValid (w : BitVec 16) : Bool := w.getLsbD 13

/-- `S[12:8]`, `off` before the step. -/
def stepOff (w : BitVec 16) : BitVec 5 := w.extractLsb' 8 5

/-- `S[7:0]`, the port `rx_byte`. -/
def stepByte (w : BitVec 16) : Byte := w.extractLsb' 0 8

/-- The word `E` of R69. -/
def encWord (op dl dh : Byte) : BitVec 24 := op ++ dl ++ dh

/-- `E[23:16]`, the port `cmd_op`. -/
def encOp (w : BitVec 24) : Byte := w.extractLsb' 16 8

/-- `E[15:8]`, the port `cmd_dl`. -/
def encDl (w : BitVec 24) : Byte := w.extractLsb' 8 8

/-- `E[7:0]`, the port `cmd_dh`. -/
def encDh (w : BitVec 24) : Byte := w.extractLsb' 0 8

/-- The RX row for a byte (R73): first the phase, then the byte, the length or the checksum. -/
def decodeRx (c : Config) (m : Memory) (b : Byte) (now : Nat) : Except DecodeReject Instr :=
  if m.length = 0 then
    if b = sync1 then .ok .rxSync1Hit else .ok (.rxSync1Miss b)
  else if m.length = 1 then
    if b = sync2 then .ok .rxSync2Hit else .ok (.rxSync2Miss b)
  else if m.length = 2 then .ok (.rxLenHi b)
  else if m.length = 3 then
    if m.lengthMatches c b then .ok (.rxLenLoOk b) else .ok (.rxLenLoBad b)
  else if m.length ≤ c.cap - 2 then .ok (.rxBody b)
  else if m.length = c.cap - 1 then
    if (m.push b).checksumMatches c then .ok (.rxLastOk b (c.portNow now)) else .ok (.rxLastBad b)
  else .error .offsetBeyondCapacity

/-- A `STEP` row: `RST` overrides every other (R138), then `IDLE`, both at any `off`; then the RX rows (R69, R73). -/
def decodeStep (c : Config) (w : BitVec 16) (m : Memory) (now : Nat) : Except DecodeReject Instr :=
  if w.getLsbD 15 then .error .unusedBit15
  else if stepRst w then .ok .rst
  else if !stepValid w then .ok .idle
  else if (stepOff w).toNat ≠ m.length then .error .offsetMismatch
  else decodeRx c m (stepByte w) now

/-- An `ENC` row. `WAKE` and `SETMODE` are names of particular words of `ENC` (R110, R111); a word that has such a
name decodes to it, `WAKE` first (notes/assumptions/7.md). -/
def decodeEnc (c : Config) (w : BitVec 24) : Instr :=
  if encOp w = opSleep ∧ encDl w = 1 ∧ encDh w = 0 then .wake
  else if encOp w = c.opMode ∧ encDl w = 0 ∧ encDh w = 0 then .setmode false
  else if encOp w = c.opMode ∧ encDl w = 1 ∧ encDh w = 0 then .setmode true
  else .enc (encOp w) (encDl w) (encDh w)

/-- The row a selector selects (R69). -/
def decode (c : Config) : Selector → Except DecodeReject Instr
  | .step w m now => decodeStep c w m now
  | .enc w => .ok (decodeEnc c w)
  | .reader r => .ok (.snap r)

/-- The selector that presents a row to a block whose accumulator is `m`, from R69's rows. Bits a row ignores are
written 0; `UPDATE` has none, since no port selects it (R99). -/
def encode (c : Config) (m : Memory) : Instr → Option Selector
  | .rst => some (.step (stepWord true false 0 0) m 0)
  | .idle => some (.step (stepWord false false (BitVec.ofNat 5 m.length) 0) m 0)
  | .rxSync1Hit => some (.step (stepWord false true 0 sync1) m 0)
  | .rxSync1Miss b => some (.step (stepWord false true 0 b) m 0)
  | .rxSync2Hit => some (.step (stepWord false true 1 sync2) m 0)
  | .rxSync2Miss b => some (.step (stepWord false true 1 b) m 0)
  | .rxLenHi b => some (.step (stepWord false true 2 b) m 0)
  | .rxLenLoOk b => some (.step (stepWord false true 3 b) m 0)
  | .rxLenLoBad b => some (.step (stepWord false true 3 b) m 0)
  | .rxBody b => some (.step (stepWord false true (BitVec.ofNat 5 m.length) b) m 0)
  | .rxLastOk b now => some (.step (stepWord false true (BitVec.ofNat 5 (c.cap - 1)) b) m now)
  | .rxLastBad b => some (.step (stepWord false true (BitVec.ofNat 5 (c.cap - 1)) b) m 0)
  | .update _ _ => none
  | .snap r => some (.reader r)
  | .enc op dl dh => some (.enc (encWord op dl dh))
  | .wake => some (.enc (encWord opSleep 1 0))
  | .setmode a => some (.enc (encWord c.opMode (if a then 1 else 0) 0))

/-- The spelling the decoder gives a transaction: itself, but for an `ENC` word that has the name `WAKE` or
`SETMODE`, and for the `SETMODE 1` of a block whose `OP_MODE` is the sleep opcode, which is `WAKE`'s word. -/
def Instr.canonical (c : Config) : Instr → Instr
  | .rst => .rst
  | .idle => .idle
  | .rxSync1Hit => .rxSync1Hit
  | .rxSync1Miss b => .rxSync1Miss b
  | .rxSync2Hit => .rxSync2Hit
  | .rxSync2Miss b => .rxSync2Miss b
  | .rxLenHi b => .rxLenHi b
  | .rxLenLoOk b => .rxLenLoOk b
  | .rxLenLoBad b => .rxLenLoBad b
  | .rxBody b => .rxBody b
  | .rxLastOk b now => .rxLastOk b now
  | .rxLastBad b => .rxLastBad b
  | .update r t => .update r t
  | .snap r => .snap r
  | .enc op dl dh =>
    if op = opSleep ∧ dl = 1 ∧ dh = 0 then .wake
    else if op = c.opMode ∧ dl = 0 ∧ dh = 0 then .setmode false
    else if op = c.opMode ∧ dl = 1 ∧ dh = 0 then .setmode true
    else .enc op dl dh
  | .wake => .wake
  | .setmode false => .setmode false
  | .setmode true => if c.opMode = opSleep then .wake else .setmode true

/-- A prefix of length `off` that a run from reset can have (R17): the first bytes of the frame whose fields are all
0. It stands beside a bare word `S` where a word alone is to be decoded (notes/assumptions/8.md). -/
def canonicalPrefix (c : Config) (off : Nat) : Memory :=
  (Machine.frame c (List.replicate c.nfields 0)).take off

/-- The row of an opcode-table word standing alone: a 16-bit word is an `S` beside the canonical prefix of its
`off`, a 24-bit word an `E`. The host's interface; the configuration is the default one. -/
def decodeTableWord (nbits w : Nat) : Option Instr :=
  if w < 2 ^ nbits then
    if nbits = 16 then
      (decodeStep .default (BitVec.ofNat 16 w)
        (canonicalPrefix .default (stepOff (BitVec.ofNat 16 w)).toNat) 1).toOption
    else if nbits = 24 then some (decodeEnc .default (BitVec.ofNat 24 w))
    else none
  else none

/-- The formats of the opcode table. -/
inductive RowFormat where
  | step
  | internal
  | read
  | enc
  deriving DecidableEq, Repr

/-- The columns of a row of spec/opcode_table.json that an encoding can be held against: the format, and the
`match` and `mask` of its word. -/
structure TableRow where
  format : RowFormat
  matchBits : Nat
  mask : Nat
  deriving DecidableEq, Repr

/-- The row of spec/opcode_table.json for a constructor, under a configuration: `RX.LAST_OK` and `RX.LAST_BAD` have
0x3F00 for V32 and 0x3D00 for V30, and `SETMODE` has `OP_MODE << 16`, as their conditions say. Rows without a word
have mask 0. -/
def Instr.tableRow (c : Config) : Instr → TableRow
  | .rst => ⟨.step, 0x4000, 0x4000⟩
  | .idle => ⟨.step, 0x0000, 0x6000⟩
  | .rxSync1Hit => ⟨.step, 0x2042, 0x7FFF⟩
  | .rxSync1Miss _ => ⟨.step, 0x2000, 0x7F00⟩
  | .rxSync2Hit => ⟨.step, 0x214D, 0x7FFF⟩
  | .rxSync2Miss _ => ⟨.step, 0x2100, 0x7F00⟩
  | .rxLenHi _ => ⟨.step, 0x2200, 0x7F00⟩
  | .rxLenLoOk _ => ⟨.step, 0x2300, 0x7F00⟩
  | .rxLenLoBad _ => ⟨.step, 0x2300, 0x7F00⟩
  | .rxBody _ => ⟨.step, 0x2000, 0x6000⟩
  | .rxLastOk _ _ => ⟨.step, match c.variant with | .v32 => 0x3F00 | .v30 => 0x3D00, 0x7F00⟩
  | .rxLastBad _ => ⟨.step, match c.variant with | .v32 => 0x3F00 | .v30 => 0x3D00, 0x7F00⟩
  | .update _ _ => ⟨.internal, 0, 0⟩
  | .snap _ => ⟨.read, 0, 0⟩
  | .enc _ _ _ => ⟨.enc, 0, 0⟩
  | .wake => ⟨.enc, 0xE40100, 0xFFFFFF⟩
  | .setmode _ => ⟨.enc, c.opMode.toNat <<< 16, 0xFFFEFF⟩

/-- A selector is of a row's format and its word has the row's fixed bits. -/
def TableRow.admits (r : TableRow) : Option Selector → Bool
  | none => r.format == .internal
  | some (.step w _ _) => r.format == .step && w &&& BitVec.ofNat 16 r.mask == BitVec.ofNat 16 r.matchBits
  | some (.enc w) => r.format == .enc && w &&& BitVec.ofNat 24 r.mask == BitVec.ofNat 24 r.matchBits
  | some (.reader _) => r.format == .read

end Sys2Proof
end

