-- ==== Sys2Proof/Machine/Flags.lean ====
section
/-! DEFINITION. The block's only flag-like state, the event of the last synchronizer step (R24, R117), and its
codes. -/

namespace Sys2Proof.Machine

/-- The events of R117. The reserved codes 5, 6 and 7 are no event, so no state of the model shows one (R67). -/
inductive Event where
  /-- No error and no completed frame. -/
  | none
  /-- The second start byte is not 0x4D (R119). -/
  | errSync2
  /-- The length is not the expected one (R120). -/
  | errLength
  /-- The computed and the received checksum differ (R121). -/
  | errChecksum
  /-- A valid frame, the store updated (R122). -/
  | frameOk
  deriving DecidableEq, Repr

/-- The 3-bit code of an event (R117). -/
def Event.code : Event → BitVec 3
  | .none => 0
  | .errSync2 => 1
  | .errLength => 2
  | .errChecksum => 3
  | .frameOk => 4

/-- The event of a code; the reserved codes 5, 6 and 7 have none: a test bench that sees one reports a broken
realisation (R67; 93_implementation_defined.md I11). -/
def Event.ofCode (k : BitVec 3) : Option Event :=
  if k = 0 then some .none
  else if k = 1 then some .errSync2
  else if k = 2 then some .errLength
  else if k = 3 then some .errChecksum
  else if k = 4 then some .frameOk
  else Option.none

/-- The source's two kinds of error (R116). No-data is none of them (R123). -/
inductive ErrorKind where
  /-- A bad second start byte or a bad length. -/
  | resync
  /-- A checksum that does not match. -/
  | checksum
  deriving DecidableEq, Repr

/-- The kind of error an event reports, if it reports one (R116). -/
def Event.errorKind : Event → Option ErrorKind
  | .none => Option.none
  | .errSync2 => some .resync
  | .errLength => some .resync
  | .errChecksum => some .checksum
  | .frameOk => Option.none

end Sys2Proof.Machine
end

