-- ==== Sys2Proof/Machine/State.lean ====
section
/-! DEFINITION. The state of the block (R13), the reasons a transaction can stop, and the state after reset (R28). -/

namespace Sys2Proof.Machine

/-- The ReadingStore's one pair (R21). -/
structure Store where
  /-- The latest valid Reading, `NFIELDS` words (R19). -/
  reading : Reading
  /-- Its capture timestamp, a `TS_W`-bit value. The block only copies and compares timestamps (R127), and their
  width is open (R7), so it is a number below `2 ^ TS_W` (notes/assumptions/3.md). -/
  ts : Nat
  deriving DecidableEq, Repr

/-- The store's pair after reset: the zeroed Reading and the sentinel (R28, R102). -/
def Store.zeroed (c : Config) : Store := { reading := List.replicate c.nfields 0, ts := c.noDataTs }

/-- What the host and the readers present to the block (R72, R129): one entry is one step of one agent. -/
inductive Transaction where
  /-- One step of the synchronizer: the ports `rst`, `rx_valid`, `rx_byte` and `now` (R49, R51). -/
  | sync (rst rxValid : Bool) (rxByte : Byte) (now : Nat)
  /-- Reader `r` snapshots (R101). -/
  | snap (r : Nat)
  /-- The host evaluates the encoder on `cmd_op`, `cmd_dl`, `cmd_dh` (R108). -/
  | enc (op dl dh : Byte)
  deriving DecidableEq, Repr

/-- What a step hands back to the agent that made it. -/
inductive Reply where
  /-- The pair a reader's snapshot returned (R101). -/
  | snapshot (r : Nat) (pair : Store)
  /-- The bytes of a command, first on the wire first (R108). -/
  | command (bytes : List Byte)
  deriving DecidableEq, Repr

/-- The state. `acc`, `store` and `ev`, with `off` as the length of `acc`, are the tuple `(off, acc, store, ev)` of
R13 and all of the block's state. The other three fields are the model's own (notes/assumptions/1.md,
notes/assumptions/4.md): no rule calls them state. -/
structure State where
  /-- The elaboration-time parameters (R25): data that no step writes. -/
  cfg : Config
  /-- The accumulated prefix `acc[0 .. off−1]` (R16). -/
  acc : Memory
  /-- The ReadingStore (R21). -/
  store : Store
  /-- The event register (R24). -/
  ev : Event
  /-- Host side: the transactions presented and not yet taken, in the order the agents interleave (R129). -/
  pending : List Transaction
  /-- Host side: what snapshots and encoder evaluations returned, oldest first. -/
  replies : List Reply
  deriving DecidableEq, Repr

/-- The offset register `off` (R14): the number of bytes accumulated, which is the prefix's length (R16). -/
abbrev State.off (s : State) : Nat := s.acc.length

/-- The synchronizer's phase, "a function of `off` alone" (R15). -/
abbrev State.phase (s : State) : Phase := Machine.phase s.cfg s.off

/-- Faults. The block itself has none (R95, R115). -/
inductive Fault where
  /-- Raised by SNAP for a reader index that is not below `N_READERS`: no such port exists (R7, R101). Safe: the model
  stops where there is no hardware to go on. -/
  | noSuchReader (r : Nat)
  deriving DecidableEq, Repr

/-- Refusals. -/
inductive Refusal where
  /-- Raised by `exec` for an instruction that has no meaning yet. No arm does. Safe. -/
  | notModelled (mnemonic : String)
  /-- Raised by an RX row's meaning in a state in which R69 does not select that row, so that the spec gives it no
  effect there. No step raises it: the decoder gives selected rows only. Safe. -/
  | notSelected (i : Instr)
  /-- Raised by `step` where the decoder gives no row: only with `off` at `CAP` or more, which no run reaches (R14,
  R30). Safe. -/
  | undecodable (why : DecodeReject)
  deriving DecidableEq, Repr

/-- The outcome of one transaction. -/
abbrev Result := Host.Outcome State Fault Refusal

/-- The state right after reset (R28): phase SeekStart1, an empty accumulator, the zeroed Reading with the sentinel,
event NONE. The configuration is the default one, and nothing has been presented or returned. -/
def State.reset : State :=
  { cfg := .default, acc := Memory.clear, store := Store.zeroed .default, ev := .none, pending := [], replies := [] }

end Sys2Proof.Machine
end

