-- ==== Sys2Proof/Machine/Ops.lean ====
section
/-! DEFINITION. The shared operations of R10 over the state, and how a row of R69 runs. -/

namespace Sys2Proof.Machine

/-- `Push(b)` (R10). -/
def State.push (s : State) (b : Byte) : State := { s with acc := s.acc.push b }

/-- `Clear()` (R10): `off <- 0`, every accumulated byte becomes stale. -/
def State.clear (s : State) : State := { s with acc := Memory.clear }

/-- `ev <- e`, the event of this step (R10, R118). It transfers no control. -/
def State.raise (s : State) (e : Event) : State := { s with ev := e }

/-- `StoreWrite(r, t)` (R10, R99): the whole pair is replaced at once, whatever it was. -/
def State.storeWrite (s : State) (r : Reading) (t : Nat) : State := { s with store := { reading := r, ts := t } }

/-- `StoreRead()` (R10, R101): the whole pair at once. -/
def State.storeRead (s : State) : Store := s.store

/-- Recovery, "the block's analogue of trap entry" (R125): nothing is saved, the accumulator restarts at offset 0, the
event names the error, the store is untouched. There is no return from it (R126). -/
def State.recover (s : State) (e : Event) : State := s.clear.raise e

/-- What RST does to the block's state (R135); the host's side is not the block's. -/
def State.resetBlock (s : State) : State :=
  { s with acc := Memory.clear, store := Store.zeroed s.cfg, ev := .none }

/-- A value goes back to the agent that made the transaction. -/
def State.answer (s : State) (r : Reply) : State := { s with replies := s.replies ++ [r] }

/-- A row has its effect in the states in which R69 selects it. -/
def onRow (i : Instr) (s t : State) : Result :=
  if i.selected s.cfg s.acc then .next t else .refused (.notSelected i)

/-- The 16-bit checksum of a command (R108). -/
def commandChecksum (op dl dh : Byte) : Word16 := byteSum [sync1, sync2, op, dh, dl]

/-- `encode(opcode, dataLow, dataHigh)`: the 7 bytes of a command, first on the wire first (R33, R108). On the wire
`dataHigh` stands before `dataLow` (R63). -/
def commandBytes (op dl dh : Byte) : List Byte :=
  [sync1, sync2, op, dh, dl] ++ wordBytes (commandChecksum op dl dh)

end Sys2Proof.Machine
end

