-- ==== Sys2Proof/Machine/Encoder.lean ====
section
/-! DEFINITION. The meanings of the CommandEncoder's rows (R108, R110, R111). The encoder has no state (R26). -/

namespace Sys2Proof.Machine

/-- ENC op, dl, dh (R108): every operand is legal (R112). -/
def execEnc (op dl dh : Byte) (s : State) : Result := .next (s.answer (.command (commandBytes op dl dh)))

/-- WAKE (R110). -/
def execWake (s : State) : Result := .next (s.answer (.command (commandBytes opSleep 0x01 0x00)))

/-- SETMODE a (R111). -/
def execSetmode (active : Bool) (s : State) : Result :=
  .next (s.answer (.command (commandBytes s.cfg.opMode (if active then 0x01 else 0x00) 0x00)))

end Sys2Proof.Machine
end

