-- ==== Sys2Proof/Machine/ReadingStore.lean ====
section
/-! DEFINITION. The meanings of the store's operations (R99, R101) and the no-data state (R22). -/

namespace Sys2Proof.Machine

/-- UPDATE (R99): internal, with no event of its own. -/
def execUpdate (r : Reading) (t : Nat) (s : State) : Result := .next (s.storeWrite r t)

/-- SNAP r (R101): the reader gets the whole pair and no state of the block changes. There are `N_READERS` ports (R7). -/
def execSnap (r : Nat) (s : State) : Result :=
  if r < s.cfg.nReaders then .next (s.answer (.snapshot r s.storeRead)) else .fault (.noSuchReader r)

/-- A pair that a reader must treat as "not yet available": its timestamp is the sentinel (R22, R123). -/
def Store.noData (c : Config) (p : Store) : Bool := p.ts == c.noDataTs

end Sys2Proof.Machine
end

