-- ==== Sys2Proof/Machine/Synchronizer.lean ====
section
/-! DEFINITION. The meanings of the synchronizer's rows (R73–R88) and of reset (R135). -/

namespace Sys2Proof.Machine

/-- RST (R135). -/
def execRst (s : State) : Result := .next s.resetBlock

/-- IDLE (R83). -/
def execIdle (s : State) : Result := .next (s.raise .none)

/-- RX.SYNC1_HIT (R74). -/
def execRxSync1Hit (s : State) : Result := onRow .rxSync1Hit s ((s.push sync1).raise .none)

/-- RX.SYNC1_MISS (R75): the byte is discarded. -/
def execRxSync1Miss (b : Byte) (s : State) : Result := onRow (.rxSync1Miss b) s (s.raise .none)

/-- RX.SYNC2_HIT (R76). -/
def execRxSync2Hit (s : State) : Result := onRow .rxSync2Hit s ((s.push sync2).raise .none)

/-- RX.SYNC2_MISS (R77): the byte is dropped and not looked at as a new start (R145). -/
def execRxSync2Miss (b : Byte) (s : State) : Result := onRow (.rxSync2Miss b) s (s.recover .errSync2)

/-- RX.LEN_HI (R78). -/
def execRxLenHi (b : Byte) (s : State) : Result := onRow (.rxLenHi b) s ((s.push b).raise .none)

/-- RX.LEN_LO_OK (R79). -/
def execRxLenLoOk (b : Byte) (s : State) : Result := onRow (.rxLenLoOk b) s ((s.push b).raise .none)

/-- RX.LEN_LO_BAD (R80): all four bytes are dropped (R145). -/
def execRxLenLoBad (b : Byte) (s : State) : Result := onRow (.rxLenLoBad b) s (s.recover .errLength)

/-- RX.BODY (R81). -/
def execRxBody (b : Byte) (s : State) : Result := onRow (.rxBody b) s ((s.push b).raise .none)

/-- RX.LAST_OK (R82, R86, R87): the last byte completes a valid frame; the Reading and the clock value replace the
store's pair. -/
def execRxLastOk (b : Byte) (now : Nat) (s : State) : Result :=
  onRow (.rxLastOk b now) s
    (((s.storeWrite (Memory.decodeReading s.cfg (s.acc.push b)) now).clear).raise .frameOk)

/-- RX.LAST_BAD (R82, R86, R88): the frame is discarded. -/
def execRxLastBad (b : Byte) (s : State) : Result := onRow (.rxLastBad b) s (s.recover .errChecksum)

end Sys2Proof.Machine
end

