-- ==== Sys2Proof/Machine/Dispatch.lean ====
section
/-! DEFINITION. One arm per row of R69. -/

namespace Sys2Proof.Machine

/-- The meaning of a transaction. -/
def exec (i : Instr) (s : State) : Host.Outcome State Fault Refusal :=
  match i with
  | .rst => Sys2Proof.Machine.execRst s
  | .idle => Sys2Proof.Machine.execIdle s
  | .rxSync1Hit => Sys2Proof.Machine.execRxSync1Hit s
  | .rxSync1Miss b => Sys2Proof.Machine.execRxSync1Miss b s
  | .rxSync2Hit => Sys2Proof.Machine.execRxSync2Hit s
  | .rxSync2Miss b => Sys2Proof.Machine.execRxSync2Miss b s
  | .rxLenHi b => Sys2Proof.Machine.execRxLenHi b s
  | .rxLenLoOk b => Sys2Proof.Machine.execRxLenLoOk b s
  | .rxLenLoBad b => Sys2Proof.Machine.execRxLenLoBad b s
  | .rxBody b => Sys2Proof.Machine.execRxBody b s
  | .rxLastOk b now => Sys2Proof.Machine.execRxLastOk b now s
  | .rxLastBad b => Sys2Proof.Machine.execRxLastBad b s
  | .update r t => Sys2Proof.Machine.execUpdate r t s
  | .snap r => Sys2Proof.Machine.execSnap r s
  | .enc op dl dh => Sys2Proof.Machine.execEnc op dl dh s
  | .wake => Sys2Proof.Machine.execWake s
  | .setmode active => Sys2Proof.Machine.execSetmode active s

end Sys2Proof.Machine
end

