-- ==== Sys2Proof/Machine/Fetch.lean ====
section
/-! DEFINITION. How the next transaction reaches the block: the queue of what the host and the readers present (R72,
R129), and the selector each entry makes at the block's present state (R69). -/

namespace Sys2Proof.Machine

/-- A step in which the host presents nothing: `rst` = 0, `rx_valid` = 0 (R51). -/
def nothingPresented : Transaction := .sync false false 0 0

/-- The transaction of this step and the state with it taken from the queue. Where nothing is presented the
synchronizer takes an IDLE step: there is always a next step (R51, R95). -/
def State.fetch (s : State) : Transaction × State :=
  match s.pending with
  | [] => (nothingPresented, s)
  | t :: rest => (t, { s with pending := rest })

/-- The selector of a transaction presented to a block whose accumulator is `m` (R69): the word `S` holds the `off`
before the step. -/
def Transaction.selector (m : Memory) : Transaction → Selector
  | .sync rst rxValid b now => .step (stepWord rst rxValid (BitVec.ofNat 5 m.length) b) m now
  | .snap r => .reader r
  | .enc op dl dh => .enc (encWord op dl dh)

/-- The row the present state and a transaction select. -/
def State.decodeTransaction (s : State) (t : Transaction) : Except DecodeReject Instr :=
  decode s.cfg (t.selector s.acc)

/-- The state in which the very next step takes an opcode-table word: the word's inputs are presented first, and for
an RX word the accumulator is the canonical prefix of the word's `off`, since `off` is part of the word. -/
def State.presentWord (s : State) (nbits w : Nat) : State :=
  if nbits = 16 then
    let word := BitVec.ofNat 16 w
    let input := Transaction.sync (stepRst word) (stepValid word) (stepByte word) 1
    if !stepRst word && stepValid word then
      { s with acc := canonicalPrefix s.cfg (stepOff word).toNat, pending := input :: s.pending }
    else { s with pending := input :: s.pending }
  else if nbits = 24 then
    let word := BitVec.ofNat 24 w
    { s with pending := .enc (encOp word) (encDl word) (encDh word) :: s.pending }
  else s

end Sys2Proof.Machine
end

