-- ==== Sys2Proof/Machine/Step.lean ====
section
/-! DEFINITION. One step of one agent (R11, R129). -/

namespace Sys2Proof.Machine

/-- One step: the next transaction is taken from the queue, the decoder selects its row at the present state, and the
row's meaning runs. -/
def step (s : State) : Host.Outcome State Fault Refusal :=
  match s.fetch.2.decodeTransaction s.fetch.1 with
  | .ok i => exec i s.fetch.2
  | .error why => .refused (.undecodable why)

/-- The host's interface: `s` with an opcode-table word presented as the next transaction. -/
def State.withFetchWord (s : State) (nbits w : Nat) : State := s.presentWord nbits w

end Sys2Proof.Machine
end

