-- ==== Sys2Proof/Machine/HostPrograms.lean ====
section
/-! DEFINITION. The transaction syntax of R70 and R71 as data, and what it presents to the block. -/

namespace Sys2Proof.Machine

/-- One line of a program (R70, R71). -/
inductive Line where
  /-- `RST`. -/
  | rst
  /-- `RX bb`. -/
  | rx (b : Byte)
  /-- `IDLE`. -/
  | idle
  /-- `CLK t`: a host action, not a step. -/
  | clk (t : Nat)
  /-- `SNAP r`. -/
  | snap (r : Nat)
  /-- `ENC op, dl, dh`. -/
  | enc (op dl dh : Byte)
  /-- `WAKE`. -/
  | wake
  /-- `SETMODE a`. -/
  | setmode (active : Bool)
  /-- `RXS b0 b1 … bn`. -/
  | rxs (bs : List Byte)
  /-- `RXS FRAME(f0, …)`. -/
  | rxsFrame (fs : Reading)
  deriving DecidableEq, Repr

/-- Bytes presented one a step with no IDLE between them, at one clock value (R71). -/
def presentBytes (now : Nat) (bs : List Byte) : List Transaction := bs.map fun b => .sync false true b now

/-- Bytes presented one a step with no IDLE between them, each at its own clock value (R70, R71). -/
def presentTimed (bs : List (Byte × Nat)) : List Transaction := bs.map fun p => .sync false true p.1 p.2

/-- The transactions a program presents when the host's clock shows `now` at its start (R70). -/
def assemble (c : Config) (now : Nat) : List Line → List Transaction
  | [] => []
  | .rst :: rest => .sync true false 0 now :: assemble c now rest
  | .rx b :: rest => .sync false true b now :: assemble c now rest
  | .idle :: rest => .sync false false 0 now :: assemble c now rest
  | .clk t :: rest => assemble c t rest
  | .snap r :: rest => .snap r :: assemble c now rest
  | .enc op dl dh :: rest => .enc op dl dh :: assemble c now rest
  | .wake :: rest => .enc opSleep 0x01 0x00 :: assemble c now rest
  | .setmode a :: rest => .enc c.opMode (if a then 0x01 else 0x00) 0x00 :: assemble c now rest
  | .rxs bs :: rest => presentBytes now bs ++ assemble c now rest
  | .rxsFrame fs :: rest => presentBytes now (frame c fs) ++ assemble c now rest

end Sys2Proof.Machine
end

