-- ==== Sys2Proof/Machine/Ports.lean ====
section
/-! DEFINITION. The output ports of the reference realisation as views of the state (R50–R54), and one clock edge of it
as a sequence of transactions (R104, R129). -/

namespace Sys2Proof.Machine

/-- `rx_ready` (R50): the synchronizer accepts a byte on every step. -/
def State.rxReady (_ : State) : Bool := true

/-- A Reading as one number, field 0 in the least significant 16 bits (R52). -/
def packReading : Reading → Nat
  | [] => 0
  | w :: ws => w.toNat + 65536 * packReading ws

/-- `rd_reading[r]` (R50, R52): every read port shows the same store. DESIGN CHOICE, notes/assumptions/15.md: for an
index with no port, which R50 leaves out, the view shows the store as well. -/
def State.rdReading (s : State) (_r : Nat) : BitVec (16 * s.cfg.nfields) :=
  BitVec.ofNat _ (packReading s.store.reading)

/-- `rd_ts[r]` (R50, R52). DESIGN CHOICE, notes/assumptions/15.md: for an index with no port the view shows the store's
timestamp as well. -/
def State.rdTs (s : State) (_r : Nat) : BitVec s.cfg.tsW := BitVec.ofNat _ s.store.ts

/-- `ev_code` (R53): the event code of the last synchronizer step. -/
def State.evCode (s : State) : BitVec 3 := s.ev.code

/-- Bytes as one number, the first in the most significant place. -/
def packBytes (bs : List Byte) : Nat := bs.foldl (fun n b => 256 * n + b.toNat) 0

/-- `cmd_frame` (R54): combinational in the encoder's inputs; byte `k` at bits `55 − 8k : 48 − 8k`. -/
def cmdFrame (op dl dh : Byte) : BitVec 56 := BitVec.ofNat 56 (packBytes (commandBytes op dl dh))

/-- What stands on the input ports at one rising edge of `clk` (R49), and which readers sample there. -/
structure Edge where
  rst : Bool
  rxValid : Bool
  rxByte : Byte
  now : Nat
  samples : List Nat
  deriving DecidableEq, Repr

/-- The steps of one edge: "all snapshots sampled at an edge are ordered before that edge's synchronizer step" (R129,
R104, R138). -/
def Edge.transactions (e : Edge) : List Transaction :=
  e.samples.map .snap ++ [.sync e.rst e.rxValid e.rxByte e.now]

end Sys2Proof.Machine
end

