-- ==== Sys2Proof/Safety.lean ====
section
/-! DEFINITION. The terms the claims use: well-formed states, the invariant of R17, host duties (R72), and runs. -/

namespace Sys2Proof.Machine

/-- Every field holds a value its register can hold: the parameters meet R7, `off` is below `CAP` (R14), the Reading
has `NFIELDS` fields (R19) and the timestamp `TS_W` bits (R21). -/
abbrev State.wf (s : State) : Bool :=
  s.cfg.wf && Memory.wf s.cfg s.acc && decide (s.store.reading.length = s.cfg.nfields) &&
    decide (s.store.ts < 2 ^ s.cfg.tsW)

/-- The invariants of R17 on an accumulated prefix. -/
abbrev prefixOk (c : Config) (m : Memory) : Bool :=
  (m.length < 1 || m.read 0 == some sync1) && (m.length < 2 || m.read 1 == some sync2) &&
    (m.length < 4 || m.read16 2 == some c.lenExpected)

/-- Well-formed, with a prefix that a run from reset can have. -/
abbrev State.inv (s : State) : Bool := s.wf && prefixOk s.cfg s.acc

/-- The block's own state (R13), without the host's side and the parameters: `off` is the length of the first. -/
abbrev State.block (s : State) : Memory × Store × Event := (s.acc, s.store, s.ev)

/-- A transaction that some port can carry: a snapshot names one of the `N_READERS` readers (R101). -/
def Transaction.valid (c : Config) : Transaction → Bool
  | .sync _ _ _ _ => true
  | .snap r => decide (r < c.nReaders)
  | .enc _ _ _ => true

/-- A step of the synchronizer (R129). -/
def Transaction.isSync : Transaction → Bool
  | .sync _ _ _ _ => true
  | .snap _ => false
  | .enc _ _ _ => false

/-- An IDLE step of the synchronizer (R83). -/
def Transaction.isIdle : Transaction → Bool
  | .sync rst rxValid _ _ => !rst && !rxValid
  | .snap _ => false
  | .enc _ _ _ => false

/-- The clock values presented, in order (R127). -/
def clockValues : List Transaction → List Nat
  | [] => []
  | .sync _ _ _ now :: rest => now :: clockValues rest
  | .snap _ :: rest => clockValues rest
  | .enc _ _ _ :: rest => clockValues rest

/-- `n` steps of the machine, up to the first that stops (the host's `Core.run` of `Sys2Proof.core`). -/
def run : Nat → State → Result
  | 0, s => .next s
  | n + 1, s =>
    match step s with
    | .next t => run n t
    | .fault f => .fault f
    | .refused r => .refused r

/-- All transactions presented have been taken: one step each (R151). -/
abbrev drain (s : State) : Result := run s.pending.length s

/-- The next step is one of the synchronizer and not IDLE: with nothing presented it is IDLE (R51). -/
abbrev State.stepsBusy (s : State) : Bool := s.fetch.1.isSync && !s.fetch.1.isIdle

/-- The events that the first `n` steps write, in order, those of IDLE steps left out: a step of the synchronizer writes
exactly one, a snapshot or an encoder evaluation none (R118). -/
def events : Nat → State → List Event
  | 0, _ => []
  | n + 1, s =>
    match step s with
    | .next t => if s.stepsBusy then t.ev :: events n t else events n t
    | .fault _ => []
    | .refused _ => []

/-- The events of the steps that take all transactions presented, IDLE left out. -/
abbrev drainEvents (s : State) : List Event := events s.pending.length s

/-- The state with transactions presented after those it already holds. -/
def State.present (s : State) (ts : List Transaction) : State := { s with pending := s.pending ++ ts }

/-- The bytes that end a run of 0x42: how many there are at the end of the sequence (R92, first case). -/
def trailingSync1 (bs : List Byte) : Nat := (bs.reverse.takeWhile (· == sync1)).length

/-- The sequence holds `42 4D` somewhere (R92). -/
def hasMarker : List Byte → Bool
  | a :: b :: rest => (a == sync1 && b == sync2) || hasMarker (b :: rest)
  | _ => false

/-- Row `UPDATE`, the one row no port selects (R99). -/
def internalRow : Instr → Bool
  | .rst => false
  | .idle => false
  | .rxSync1Hit => false
  | .rxSync1Miss _ => false
  | .rxSync2Hit => false
  | .rxSync2Miss _ => false
  | .rxLenHi _ => false
  | .rxLenLoOk _ => false
  | .rxLenLoBad _ => false
  | .rxBody _ => false
  | .rxLastOk _ _ => false
  | .rxLastBad _ => false
  | .update _ _ => true
  | .snap _ => false
  | .enc _ _ _ => false
  | .wake => false
  | .setmode _ => false

end Sys2Proof.Machine
end

