-- ==== Sys2Proof/Certificates/Slice0/Obligations.lean ====
section
/-! DEFINITION. The statements about the block. "Full" is the accumulator after the push of the last byte. -/

open Sys2Proof Sys2Proof.Machine

/-! ### Reset -/

/-- R28: what each piece of the block's state is after reset. -/
def Obligations.ResetLeavesStatedValues : Prop :=
  State.reset.off = 0 ∧ State.reset.phase = .seekStart1 ∧ State.reset.acc = [] ∧
    State.reset.store.reading.length = State.reset.cfg.nfields ∧
    (∀ w ∈ State.reset.store.reading, w = 0) ∧
    State.reset.store.ts = State.reset.cfg.noDataTs ∧ State.reset.cfg.noDataTs = 0 ∧
    State.reset.ev = .none ∧ State.reset.evCode = 0

/-- The reset state meets the invariant of `StepKeepsInvariant`. -/
def Obligations.ResetMeetsInvariant : Prop := State.reset.inv = true

/-- R135: RST completes in every state and leaves the reset values; the rest of the state is as it was. -/
def Obligations.RstCompletesAndRestoresReset : Prop :=
  ∀ s : State, exec .rst s = .next
    { s with acc := [], store := { reading := List.replicate s.cfg.nfields 0, ts := s.cfg.noDataTs }, ev := .none }

/-- R137: whatever byte stands beside `rst` = 1, the step is the reset and the byte is gone. -/
def Obligations.ResetDropsThePresentedByte : Prop :=
  ∀ (s : State) (rxValid : Bool) (b : Byte) (now : Nat) (rest : List Transaction),
    s.pending = .sync true rxValid b now :: rest →
      step s = .next { s with
        acc := [], store := { reading := List.replicate s.cfg.nfields 0, ts := s.cfg.noDataTs }, ev := .none,
        pending := rest }

/-! ### The synchronizer's rows: each completes where R69 selects it, with exactly its effect -/

/-- R83. -/
def Obligations.IdleCompletes : Prop :=
  ∀ s : State, exec .idle s = .next { s with ev := .none }

/-- R74. -/
def Obligations.Sync1HitCompletes : Prop :=
  ∀ s : State, s.off = 0 →
    exec .rxSync1Hit s = .next { s with acc := [0x42], ev := .none } ∧
      Machine.phase s.cfg ([0x42] : Memory).length = .seekStart2

/-- R75. -/
def Obligations.Sync1MissCompletes : Prop :=
  ∀ (s : State) (b : Byte), s.off = 0 → b ≠ 0x42 → exec (.rxSync1Miss b) s = .next { s with ev := .none }

/-- R76. -/
def Obligations.Sync2HitCompletes : Prop :=
  ∀ (s : State) (a : Byte), s.acc = [a] → exec .rxSync2Hit s = .next { s with acc := [a, 0x4D], ev := .none }

/-- R77: the byte is dropped, 0x42 too. -/
def Obligations.Sync2MissCompletes : Prop :=
  ∀ (s : State) (b : Byte), s.off = 1 → b ≠ 0x4D →
    exec (.rxSync2Miss b) s = .next { s with acc := [], ev := .errSync2 }

/-- R78: any byte is a length high byte. -/
def Obligations.LenHiCompletes : Prop :=
  ∀ (s : State) (b : Byte), s.off = 2 → exec (.rxLenHi b) s = .next { s with acc := s.acc ++ [b], ev := .none }

/-- R79. -/
def Obligations.LenLoOkCompletes : Prop :=
  ∀ (s : State) (h b : Byte), s.off = 3 → s.acc[2]? = some h → be16 h b = s.cfg.lenExpected →
    exec (.rxLenLoOk b) s = .next { s with acc := s.acc ++ [b], ev := .none }

/-- R80: a length other than the expected one drops all four bytes. -/
def Obligations.LenLoBadCompletes : Prop :=
  ∀ (s : State) (h b : Byte), s.off = 3 → s.acc[2]? = some h → be16 h b ≠ s.cfg.lenExpected →
    exec (.rxLenLoBad b) s = .next { s with acc := [], ev := .errLength }

/-- R81: body bytes and the high checksum byte, with no check. -/
def Obligations.BodyCompletes : Prop :=
  ∀ (s : State) (b : Byte), 4 ≤ s.off → s.off ≤ s.cfg.cap - 2 →
    exec (.rxBody b) s = .next { s with acc := s.acc ++ [b], ev := .none }

/-- R82, R86, R87: where the last byte completes a frame whose received checksum is the sum of all bytes before the
two checksum bytes, field `i` of the new Reading is the big-endian word at offset `4 + 2i` of the full frame, and the
pair replaces the store's. -/
def Obligations.LastOkCompletes : Prop :=
  ∀ (s : State) (h b : Byte) (now : Nat), s.off = s.cfg.cap - 1 → s.acc[s.cfg.cap - 2]? = some h →
    be16 h b = byteSum (s.acc.take (s.cfg.cap - 2)) →
      ∃ r : Reading, r.length = s.cfg.nfields ∧
        (∀ i, i < s.cfg.nfields → ∀ hi lo : Byte, (s.acc ++ [b])[4 + 2 * i]? = some hi →
          (s.acc ++ [b])[5 + 2 * i]? = some lo → r[i]? = some (be16 hi lo)) ∧
        exec (.rxLastOk b now) s = .next { s with acc := [], store := { reading := r, ts := now }, ev := .frameOk }

/-- R82, R86, R88: where it does not match, the frame is discarded and the store keeps its pair. -/
def Obligations.LastBadCompletes : Prop :=
  ∀ (s : State) (h b : Byte), s.off = s.cfg.cap - 1 → s.acc[s.cfg.cap - 2]? = some h →
    be16 h b ≠ byteSum (s.acc.take (s.cfg.cap - 2)) →
      exec (.rxLastBad b) s = .next { s with acc := [], ev := .errChecksum }

/-- The model's choice (notes/assumptions/5.md): an RX row run in a state in which R69 does not select it stops by
name. -/
def Obligations.UnselectedRowIsRefused : Prop :=
  ∀ (i : Instr) (s : State), i.selected s.cfg s.acc = false → exec i s = .refused (.notSelected i)

/-! ### The store -/

/-- R99: UPDATE writes the whole pair, whatever the old and the new timestamp are, and nothing else. -/
def Obligations.UpdateCompletes : Prop :=
  ∀ (s : State) (r : Reading) (t : Nat), exec (.update r t) s = .next { s with store := { reading := r, ts := t } }

/-- R101: SNAP returns the whole pair to its reader and changes nothing of the block. -/
def Obligations.SnapCompletes : Prop :=
  ∀ (s : State) (r : Nat), r < s.cfg.nReaders →
    exec (.snap r) s = .next { s with replies := s.replies ++ [.snapshot r s.store] }

/-- The model's choice (notes/assumptions/6.md): a reader index with no port faults. -/
def Obligations.SnapOfNoReaderFaults : Prop :=
  ∀ (s : State) (r : Nat), s.cfg.nReaders ≤ r → exec (.snap r) s = .fault (.noSuchReader r)

/-- R45: a snapshot after the step of a valid frame returns that frame's pair. -/
def Obligations.SnapshotAfterFrameOkReturnsTheFrame : Prop :=
  ∀ (s t : State) (b : Byte) (now r : Nat), exec (.rxLastOk b now) s = .next t → r < s.cfg.nReaders →
    t.ev = .frameOk ∧ exec (.snap r) t = .next { t with
      replies := s.replies ++ [.snapshot r { reading := Memory.decodeReading s.cfg (s.acc ++ [b]), ts := now }] }

/-- R22, R142: a valid frame completing at the sentinel clock value is stored, and reads as no data; at any other
clock value it reads as data. -/
def Obligations.SentinelCollisionReadsAsNoData : Prop :=
  ∀ (s t : State) (b : Byte) (now : Nat), exec (.rxLastOk b now) s = .next t →
    t.store.reading = Memory.decodeReading s.cfg (s.acc ++ [b]) ∧
      (t.store.noData t.cfg = true ↔ now = s.cfg.noDataTs)

/-! ### The encoder -/

/-- R108: the seven bytes of every operand, `dataHigh` before `dataLow`. -/
def Obligations.EncCompletes : Prop :=
  ∀ (s : State) (op dl dh : Byte),
    let ck : Word16 := (0x42 : Word16) + 0x4D + op.setWidth 16 + dh.setWidth 16 + dl.setWidth 16
    exec (.enc op dl dh) s = .next { s with
      replies := s.replies ++ [.command [0x42, 0x4D, op, dh, dl, ck.extractLsb' 8 8, ck.extractLsb' 0 8]] }

/-- R110. -/
def Obligations.WakeCompletes : Prop :=
  ∀ s : State, exec .wake s = .next { s with
    replies := s.replies ++ [.command [0x42, 0x4D, 0xE4, 0x00, 0x01, 0x01, 0x74]] }

/-- R111: for every `OP_MODE`. -/
def Obligations.SetmodeCompletes : Prop :=
  ∀ (s : State) (active : Bool),
    let dl : Byte := if active then 1 else 0
    let ck : Word16 := (0x8F : Word16) + s.cfg.opMode.setWidth 16 + dl.setWidth 16
    exec (.setmode active) s = exec (.enc s.cfg.opMode dl 0) s ∧
      exec (.setmode active) s = .next { s with
        replies := s.replies ++
          [.command [0x42, 0x4D, s.cfg.opMode, 0x00, dl, ck.extractLsb' 8 8, ck.extractLsb' 0 8]] }

/-- R109: the command checksum never wraps and its high byte is at most 3. -/
def Obligations.CommandChecksumNeverWraps : Prop :=
  ∀ op dl dh : Byte,
    (commandChecksum op dl dh).toNat = 0x42 + 0x4D + op.toNat + dh.toNat + dl.toNat ∧
      143 ≤ (commandChecksum op dl dh).toNat ∧ (commandChecksum op dl dh).toNat ≤ 908 ∧
      ((commandChecksum op dl dh).extractLsb' 8 8).toNat ≤ 3

/-- R54: byte `k` of the command sits at `cmd_frame[55 − 8k : 48 − 8k]`. -/
def Obligations.CommandFrameLayout : Prop :=
  ∀ (op dl dh : Byte) (k : Nat), k < 7 →
    (commandBytes op dl dh)[k]? = some ((cmdFrame op dl dh).extractLsb' (48 - 8 * k) 8)

/-- R114: a command looped back is no frame: for any opcode but 0 its fourth byte ends the candidate. -/
def Obligations.CommandLoopedBackFailsTheLength : Prop :=
  ∀ (s : State) (op dl dh : Byte) (now : Nat), s.acc = [] → s.pending = [] → op ≠ 0 →
    run 4 (s.present (presentBytes now ((commandBytes op dl dh).take 4))) =
      .next { s with acc := [], ev := .errLength }

/-! ### Frames: what a row leaves as it was -/

/-- A row that stores a byte stores it at the offset before the step, moves the offset on by one, and leaves every
other address and every other field but the event as it was. -/
def Obligations.StoringRowsFrame : Prop :=
  ∀ (s t : State) (i : Instr) (b : Byte),
    (i = .rxSync1Hit ∨ i = .rxSync2Hit ∨ i = .rxLenHi b ∨ i = .rxLenLoOk b ∨ i = .rxBody b) → i.rxByte = some b →
    exec i s = .next t →
      (∀ a, a ≠ s.off → t.acc.read a = s.acc.read a) ∧ t.acc.read s.off = some b ∧ t.off = s.off + 1 ∧
        t.ev = .none ∧ t.store = s.store ∧ t.cfg = s.cfg ∧ t.pending = s.pending ∧ t.replies = s.replies

/-- R125: recovery from each of the three errors saves nothing, restarts at offset 0 and leaves the store untouched;
the event names the error, of the kind R116 gives it, and nothing else changes. -/
def Obligations.RecoveryFrame : Prop :=
  ∀ (s t : State) (b : Byte) (i : Instr) (e : Event) (k : ErrorKind),
    ((i = .rxSync2Miss b ∧ e = .errSync2 ∧ k = .resync) ∨ (i = .rxLenLoBad b ∧ e = .errLength ∧ k = .resync) ∨
      (i = .rxLastBad b ∧ e = .errChecksum ∧ k = .checksum)) → exec i s = .next t →
        t.off = 0 ∧ t.phase = .seekStart1 ∧ (∀ a, t.acc.read a = none) ∧ t.ev = e ∧
          t.ev.errorKind = some k ∧ t.store = s.store ∧ t.cfg = s.cfg ∧ t.pending = s.pending ∧ t.replies = s.replies

/-- The rows that store no byte and do not clear leave every address as it reads; each leaves the fields it has no
effect on. -/
def Obligations.NonStoringRowsFrame : Prop :=
  ∀ (s t : State) (i : Instr) (b : Byte) (rd : Reading) (ts r : Nat) (op dl dh : Byte) (active : Bool),
    exec i s = .next t →
      ((i = .idle ∨ i = .rxSync1Miss b) →
        (∀ a, t.acc.read a = s.acc.read a) ∧ t.off = s.off ∧ t.ev = .none ∧ t.store = s.store ∧ t.cfg = s.cfg ∧
          t.pending = s.pending ∧ t.replies = s.replies) ∧
      (i = .update rd ts →
        (∀ a, t.acc.read a = s.acc.read a) ∧ t.off = s.off ∧ t.ev = s.ev ∧ t.cfg = s.cfg ∧
          t.pending = s.pending ∧ t.replies = s.replies) ∧
      ((i = .snap r ∨ i = .enc op dl dh ∨ i = .wake ∨ i = .setmode active) →
        (∀ a, t.acc.read a = s.acc.read a) ∧ t.off = s.off ∧ t.ev = s.ev ∧ t.store = s.store ∧ t.cfg = s.cfg ∧
          t.pending = s.pending)

/-- No row changes a parameter (R25; the field `cfg` is the model's, notes/assumptions/1.md). That no row changes what
the host has presented is the model's choice: the queue `pending` is its own field, and only the step takes from it
(notes/assumptions/4.md). -/
def Obligations.NoRowChangesTheParameters : Prop :=
  ∀ (i : Instr) (s t : State), exec i s = .next t → t.cfg = s.cfg ∧ t.pending = s.pending

/-! ### Decoding and encoding -/

/-- Words written out from the encodings of R69's rows decode to those rows; an RX word stands beside the canonical
prefix of its offset (notes/assumptions/8.md), and the word E4 01 00 has the name WAKE and not ENC
(notes/assumptions/7.md): both are the model's choices. -/
def Obligations.TableWordsDecodeToTheirRows : Prop :=
  decodeTableWord 16 0b0100000000000000 = some .rst ∧
    decodeTableWord 16 0b0001000111111111 = some .idle ∧
    decodeTableWord 16 0b0010000001000010 = some .rxSync1Hit ∧
    decodeTableWord 16 0b0010000101001101 = some .rxSync2Hit ∧
    decodeTableWord 16 0b0010001101000010 = some (.rxLenLoBad 0x42) ∧
    decodeTableWord 16 0b0011111001000010 = some (.rxBody 0x42) ∧
    decodeTableWord 24 0b111001000000000100000000 = some .wake ∧
    decodeTableWord 24 0b000000010000001000000011 = some (.enc 0x01 0x02 0x03)

/-- Whatever word, accumulator and clock value are presented, the row the decoder gives is well formed and selected at
that accumulator; a reader's selector gives its SNAP, which is well formed exactly for a reader that exists. Each row
comes in its canonical spelling, the model's choice (notes/assumptions/7.md). -/
def Obligations.DecoderGivesSelectedRows : Prop :=
  ∀ (c : Config) (i : Instr),
    (∀ (w : BitVec 16) (m : Memory) (now : Nat), decode c (.step w m now) = .ok i →
      i.wf c = true ∧ i.selected c m = true ∧ i.canonical c = i) ∧
    (∀ (w : BitVec 24) (m : Memory), decode c (.enc w) = .ok i →
      i.wf c = true ∧ i.selected c m = true ∧ i.canonical c = i) ∧
    (∀ (r : Nat) (m : Memory), decode c (.reader r) = .ok i →
      i = .snap r ∧ (i.wf c = true ↔ r < c.nReaders) ∧ i.selected c m = true ∧ i.canonical c = i)

/-- Decode of encode is the row in its canonical spelling, for every row a port can select, with every operand at every
value and at every accumulator that selects the row. The canonical spelling is the model's choice
(notes/assumptions/7.md): `ENC E4, 01, 00` comes back as WAKE, and every row that is no name of an ENC word as itself. -/
def Obligations.DecodeOfEncodeIsTheRow : Prop :=
  ∀ (c : Config) (m : Memory) (i : Instr), m.length < c.cap → i.wf c = true → i.selected c m = true →
    internalRow i = false → ∃ sel, encode c m i = some sel ∧ decode c sel = .ok (i.canonical c)

/-- The canonical spelling (notes/assumptions/7.md) is the same transaction: it runs the same, in every state. -/
def Obligations.CanonicalSpellingRunsTheSame : Prop :=
  ∀ (i : Instr) (s : State), exec (i.canonical s.cfg) s = exec i s

/-- Field `i` of the decoded Reading is the big-endian word at offset `4 + 2i` (R59). -/
def Obligations.FieldsDecodeAtTheirOffsets : Prop :=
  ∀ (c : Config) (m : Memory) (i : Nat), m.length = c.cap → i < c.nfields →
    ∃ h l : Byte, m.read (4 + 2 * i) = some h ∧ m.read (5 + 2 * i) = some l ∧
      (Memory.decodeReading c m)[i]? = some (be16 h l)

/-! ### The step -/

/-- A step runs the row the decoder gives for the transaction presented first, on the state without that transaction;
with nothing presented it runs IDLE; where the decoder gives no row it refuses by name. The queue, and that an empty one
is an IDLE step, are the model's choices (notes/assumptions/4.md), and so is the refusal, which no run from reset
reaches (notes/assumptions/13.md). -/
def Obligations.StepRunsTheDecodedRow : Prop :=
  ∀ s : State,
    (∀ (t : Transaction) (rest : List Transaction) (i : Instr), s.pending = t :: rest →
      decode s.cfg (t.selector s.acc) = .ok i → step s = exec i { s with pending := rest }) ∧
    (s.pending = [] → step s = exec .idle s) ∧
    (∀ (t : Transaction) (rest : List Transaction) (why : DecodeReject), s.pending = t :: rest →
      decode s.cfg (t.selector s.acc) = .error why → step s = .refused (.undecodable why))

/-- R95: at every offset and for every byte exactly one RX row is selected (a clock value is no part of the
selection), and it completes; IDLE and RST complete always. -/
def Obligations.SynchronizerIsTotal : Prop :=
  ∀ (s : State) (b : Byte), s.off < s.cfg.cap →
    (∃ i : Instr, i.rxByte = some b ∧ i.selected s.cfg s.acc = true ∧ (∃ t, exec i s = .next t) ∧
      ∀ j : Instr, j.rxByte = some b → j.selected s.cfg s.acc = true →
        j = i ∨ ∃ n n' : Nat, i = .rxLastOk b n ∧ j = .rxLastOk b n') ∧
    (∃ t, exec .idle s = .next t) ∧ ∃ t, exec .rst s = .next t

/-- From every well-formed state, whatever a port can carry, the step answers a next state. -/
def Obligations.StepAlwaysCompletes : Prop :=
  ∀ s : State, s.wf = true → (∀ t rest, s.pending = t :: rest → t.valid s.cfg = true) → ∃ t, step s = .next t

/-- From every state that is well formed with a prefix as in R17, a step gives such a state. -/
def Obligations.StepKeepsInvariant : Prop :=
  ∀ s t : State, s.inv = true → step s = .next t → t.inv = true

/-- A presented transaction is consumed by the step that takes it (R42); the queue is the model's own field
(notes/assumptions/4.md). -/
def Obligations.PresentedTransactionIsConsumedOnce : Prop :=
  ∀ (s t : State) (x : Transaction) (rest : List Transaction), s.pending = x :: rest → step s = .next t →
    t.pending = rest

/-- Only a reset and a valid frame change the store (R97, R98): a reset zeroes it, and a frame writes the pair of its
own bytes and, where it fits the port, the clock value of its last byte, in the step whose event is FRAME_OK. -/
def Obligations.OnlyResetAndValidFramesWriteTheStore : Prop :=
  ∀ s t : State, step s = .next t →
    t.store = s.store ∨
      (∃ v b now rest, s.pending = .sync true v b now :: rest ∧ t.store = Store.zeroed s.cfg) ∨
      (∃ b now rest, s.pending = .sync false true b now :: rest ∧ s.off = s.cfg.cap - 1 ∧ t.ev = .frameOk ∧
        t.store.reading = Memory.decodeReading s.cfg (s.acc ++ [b]) ∧ (now < 2 ^ s.cfg.tsW → t.store.ts = now))

/-- Each event names the row of its step, and no other row raises it (R119–R122). -/
def Obligations.EventNamesTheRowOfItsStep : Prop :=
  ∀ (s t : State) (x : Transaction) (rest : List Transaction) (i : Instr), s.pending = x :: rest →
    x.isSync = true → decode s.cfg (x.selector s.acc) = .ok i → step s = .next t →
      (t.ev = .errSync2 ↔ ∃ b, i = .rxSync2Miss b) ∧ (t.ev = .errLength ↔ ∃ b, i = .rxLenLoBad b) ∧
        (t.ev = .errChecksum ↔ ∃ b, i = .rxLastBad b) ∧ (t.ev = .frameOk ↔ ∃ b now, i = .rxLastOk b now)

/-- The event codes of R117, and that the reserved codes are never shown (R67). -/
def Obligations.EventCodes : Prop :=
  Event.none.code = 0 ∧ Event.errSync2.code = 1 ∧ Event.errLength.code = 2 ∧ Event.errChecksum.code = 3 ∧
    Event.frameOk.code = 4 ∧ (∀ s : State, s.evCode ≠ 5 ∧ s.evCode ≠ 6 ∧ s.evCode ≠ 7) ∧
    ∀ e : Event, Event.ofCode e.code = some e

/-- R52: field `i` of the store at bits `16i + 15 : 16i` of every read port, and the timestamp on its own port.
That the view of an index with no port shows the same is the model's choice (notes/assumptions/15.md). -/
def Obligations.ReadPortLayout : Prop :=
  ∀ (s : State) (r i : Nat), s.wf = true →
    (i < s.cfg.nfields → s.store.reading[i]? = some ((s.rdReading r).extractLsb' (16 * i) 16)) ∧
      (s.rdTs r).toNat = s.store.ts

/-! ### Runs -/

/-- R84: once at offset 4 or later, no byte changes the path before the last one: every byte is stored in order. -/
def Obligations.BodyBytesNeverChangeThePath : Prop :=
  ∀ (s : State) (bs : List (Byte × Nat)), 4 ≤ s.off → s.off + bs.length < s.cfg.cap → s.pending = [] →
    s.ev = .none →
      drain (s.present (presentTimed bs)) = .next { s with acc := s.acc ++ bs.map (·.1) }

/-- R92: a valid frame whose first byte arrives at offset 0 is recognised, whatever its fields and whatever the clock
shows at the bytes before the last: the store holds exactly its fields, with the `TS_W`-bit clock value of its last
byte. -/
def Obligations.ValidFrameIsRecognised : Prop :=
  ∀ (s : State) (fs : Reading) (nows : List Nat) (last : Nat), s.acc = [] → s.pending = [] →
    fs.length = s.cfg.nfields → nows.length = s.cfg.cap → nows[s.cfg.cap - 1]? = some last →
    last < 2 ^ s.cfg.tsW →
      drain (s.present (List.zipWith (fun b now => .sync false true b now) (frame s.cfg fs) nows)) =
        .next { s with acc := [], store := { reading := fs, ts := last }, ev := .frameOk }

/-- R106: under a non-decreasing clock, the stored timestamp is not before the time just before the first byte. -/
def Obligations.FrameTimestampIsNotBeforeItsFirstByte : Prop :=
  ∀ (s : State) (fs : Reading) (nows : List Nat) (before : Nat), s.acc = [] → s.pending = [] →
    fs.length = s.cfg.nfields → nows.length = s.cfg.cap → (before :: nows).Pairwise (· ≤ ·) →
    (∀ now ∈ nows, now < 2 ^ s.cfg.tsW) →
      ∃ t, drain (s.present (List.zipWith (fun b now => .sync false true b now) (frame s.cfg fs) nows)) = .next t ∧
        t.store.reading = fs ∧ before ≤ t.store.ts

/-- R92, first case (90_conflicts.md C12): garbage without `42 4D` fed at offset 0, each byte at its own clock value,
leaves the offset at 0 or 1, and at 1 exactly when it ends with an odd run of 0x42; the store is untouched. -/
def Obligations.GarbageLeavesOffsetZeroOrOne : Prop :=
  ∀ (s : State) (bs : List (Byte × Nat)), s.acc = [] → s.pending = [] → hasMarker (bs.map (·.1)) = false →
    ∃ t, drain (s.present (presentTimed bs)) = .next t ∧ t.off = trailingSync1 (bs.map (·.1)) % 2 ∧ t.store = s.store

/-- R145, R85: the bytes of a rejected candidate are never looked at again. After `42 X` with any `X` but 0x4D, after a
start marker with any bad length, and after a whole frame of any content with a bad checksum, each byte at its own clock
value, whatever follows runs as if it alone had been presented to a block at offset 0 whose event names the error. -/
def Obligations.ResyncBlindSpots : Prop :=
  ∀ (s : State) (bs : List (Byte × Nat)) (rest : List Transaction), s.acc = [] → s.pending = [] →
    (∀ x, bs.map (·.1) = [0x42, x] → x ≠ 0x4D →
      drain (s.present (presentTimed bs ++ rest)) = drain (State.present { s with ev := .errSync2 } rest)) ∧
    (∀ h l, bs.map (·.1) = [0x42, 0x4D, h, l] → be16 h l ≠ s.cfg.lenExpected →
      drain (s.present (presentTimed bs ++ rest)) = drain (State.present { s with ev := .errLength } rest)) ∧
    (bs.length = s.cfg.cap → prefixOk s.cfg (bs.map (·.1)) = true →
      Memory.checksumMatches s.cfg (bs.map (·.1)) = false →
        drain (s.present (presentTimed bs ++ rest)) = drain (State.present { s with ev := .errChecksum } rest))

/-- R146: a valid frame after a truncated candidate of `k` bytes: for `k` from 1 to 3 one of its first bytes fails a
check, and for a longer candidate its bytes complete the old one, whose checksum decides. -/
def Obligations.FrameAfterTruncatedCandidate : Prop :=
  ∀ (s : State) (fs : Reading) (now : Nat), s.inv = true → s.pending = [] → fs.length = s.cfg.nfields →
    (s.off = 1 → run 1 (s.present (presentBytes now ((frame s.cfg fs).take 1))) =
      .next { s with acc := [], ev := .errSync2 }) ∧
    (s.off = 2 → run 2 (s.present (presentBytes now ((frame s.cfg fs).take 2))) =
      .next { s with acc := [], ev := .errLength }) ∧
    (s.off = 3 → run 1 (s.present (presentBytes now ((frame s.cfg fs).take 1))) =
      .next { s with acc := [], ev := .errLength }) ∧
    (4 ≤ s.off → ∃ t,
      run (s.cfg.cap - s.off) (s.present (presentBytes now ((frame s.cfg fs).take (s.cfg.cap - s.off)))) = .next t ∧
        t.acc = [] ∧
        (Memory.checksumMatches s.cfg (s.acc ++ (frame s.cfg fs).take (s.cfg.cap - s.off)) = true →
          t.ev = .frameOk) ∧
        (Memory.checksumMatches s.cfg (s.acc ++ (frame s.cfg fs).take (s.cfg.cap - s.off)) = false →
          t.ev = .errChecksum ∧ t.store = s.store))

/-- R93: IDLE steps between the other transactions change no result: the accumulator, the store, the event of every
other step of the synchronizer and what every snapshot and encoder evaluation returned are as without them. -/
def Obligations.IdleStepsNeverMatter : Prop :=
  ∀ (s : State) (ts : List Transaction), s.wf = true → s.pending = [] → (∀ x ∈ ts, x.valid s.cfg = true) →
    ∃ t u, drain (s.present ts) = .next t ∧ drain (s.present (ts.filter fun x => !x.isIdle)) = .next u ∧
      t.acc = u.acc ∧ t.store = u.store ∧ t.replies = u.replies ∧
        drainEvents (s.present ts) = drainEvents (s.present (ts.filter fun x => !x.isIdle))

/-- R152, R47: snapshots and encoder evaluations, however many and wherever, change nothing of the block's state. -/
def Obligations.ReadersAndEncoderNeverDisturbTheBlock : Prop :=
  ∀ (s : State) (ts : List Transaction), s.wf = true → s.pending = [] → (∀ x ∈ ts, x.valid s.cfg = true) →
    ∃ t u, drain (s.present ts) = .next t ∧ drain (s.present (ts.filter (·.isSync))) = .next u ∧ t.block = u.block

/-- R43, R100: every snapshot of a run returned the whole pair that the store held in some state of the run before its
step: never a mixture, and never a pair not yet written. -/
def Obligations.SnapshotsAreUntorn : Prop :=
  ∀ (s t : State) (n : Nat), run n s = .next t →
    ∀ (r : Nat) (p : Store), Reply.snapshot r p ∈ t.replies.drop s.replies.length →
      ∃ k u, k < n ∧ run k s = .next u ∧ p = u.store

/-- R104, R138: snapshots sampled at an edge return the pair from before that edge's step, for an update and for a
reset alike. -/
def Obligations.SnapshotsAtAnEdgeReturnTheOldPair : Prop :=
  ∀ (s : State) (e : Edge) (rest : List Transaction), s.pending = e.transactions ++ rest →
    (∀ r ∈ e.samples, r < s.cfg.nReaders) →
      run e.samples.length s = .next { s with
        pending := .sync e.rst e.rxValid e.rxByte e.now :: rest,
        replies := s.replies ++ e.samples.map fun r => .snapshot r s.store }

/-- R23: without a reset, and under a non-decreasing clock that is not behind the store, no run lowers the store's
timestamp. -/
def Obligations.TimestampNeverDecreases : Prop :=
  ∀ (s t : State) (n : Nat), (clockValues s.pending).Pairwise (· ≤ ·) →
    (∀ now ∈ clockValues s.pending, s.store.ts ≤ now ∧ now < 2 ^ s.cfg.tsW) →
    (∀ v b now, Transaction.sync true v b now ∉ s.pending) → run n s = .next t → s.store.ts ≤ t.store.ts

/-- R89: on a full accumulator with the fixed first four bytes the checksum never wraps, its range is as stated for
each variant, and a received checksum outside the range never matches. The V30 clauses rest on the layout that the spec
infers (92_eei_decisions.md D14; notes/assumptions/10.md). -/
def Obligations.FrameChecksumNeverWraps : Prop :=
  ∀ (c : Config) (m : Memory), m.length = c.cap → prefixOk c m = true →
    let lo := match c.variant with | .v32 => 0x00AB | .v30 => 0x00A9
    let hi := match c.variant with | .v32 => 0x1A91 | .v30 => 0x1891
    let sum := ((m.take (c.cap - 2)).map BitVec.toNat).sum
    lo ≤ sum ∧ sum ≤ hi ∧ (m.sum16 0 (c.cap - 3)).toNat = sum ∧
      ∀ received : Word16, m.read16 (c.cap - 2) = some received → (received.toNat < lo ∨ hi < received.toNat) →
        m.checksumMatches c = false

/-- The model's choice (notes/assumptions/3.md): a clock value too wide for the port `now` runs as its low `TS_W`
bits. -/
def Obligations.PortCarriesTheLowClockBits : Prop :=
  ∀ (s : State) (rst rxValid : Bool) (b : Byte) (now : Nat) (rest : List Transaction),
    step { s with pending := .sync rst rxValid b now :: rest } =
      step { s with pending := .sync rst rxValid b (now % 2 ^ s.cfg.tsW) :: rest }
end

