-- ==== Sys2Proof/Laws/Memory.lean ====
section
/-! SUPPORT. The accumulator's operations, and the values assembled from its bytes. -/

namespace Sys2Proof.Machine

/-- The parameters that follow from the variant, both rows of R6. -/
theorem variant_cases (c : Config) :
    (c.variant = .v32 ∧ c.cap = 32 ∧ c.nfields = 13 ∧ c.lenExpected = 0x001C) ∨
      (c.variant = .v30 ∧ c.cap = 30 ∧ c.nfields = 12 ∧ c.lenExpected = 0x001A) := by
  cases hv : c.variant <;> simp [Config.cap, Config.nfields, Config.lenExpected, hv]

/-- The expected length counts the bytes after the length field (R62). -/
theorem lenExpected_eq (c : Config) : c.lenExpected = BitVec.ofNat 16 (c.cap - 4) := by
  rcases variant_cases c with ⟨-, h, -, e⟩ | ⟨-, h, -, e⟩ <;> rw [h, e] <;> rfl

namespace Memory

@[simp] theorem length_push (m : Memory) (b : Byte) : (m.push b).length = m.length + 1 := by simp [push]

@[simp] theorem length_clear : clear.length = 0 := rfl

/-- A byte stored reads back at the offset it was stored at. -/
@[simp] theorem read_push_at_off (m : Memory) (b : Byte) : (m.push b).read m.length = some b := by
  simp [push, read]

/-- A push leaves every other address as it reads. -/
theorem read_push_elsewhere (m : Memory) (b : Byte) (a : Nat) (h : a ≠ m.length) :
    (m.push b).read a = m.read a := by
  unfold push read
  rcases Nat.lt_or_gt_of_ne h with hlt | hgt
  · simp [List.getElem?_append_left hlt]
  · rw [List.getElem?_eq_none (by simp; omega), List.getElem?_eq_none (by omega)]

/-- Nothing reads from a cleared accumulator. -/
@[simp] theorem read_clear (a : Nat) : clear.read a = none := by simp [clear, read]

/-- A push keeps the resting form wherever it does not fill the frame (R14). -/
theorem push_wf (c : Config) (m : Memory) (b : Byte) (h : m.length + 1 < c.cap) : (m.push b).wf c = true := by
  simp [h]

/-- A cleared accumulator has the resting form. -/
theorem clear_wf (c : Config) : clear.wf c = true := by
  cases hv : c.variant <;> simp [Config.cap, hv, clear]

/-- The offset that a two-byte read needs. -/
theorem read16_eq_some (m : Memory) (a : Nat) (w : Word16) :
    m.read16 a = some w ↔ ∃ h l, m.read a = some h ∧ m.read (a + 1) = some l ∧ be16 h l = w := by
  unfold read16
  split
  · simp_all
  · rename_i hn
    constructor
    · simp
    · rintro ⟨h, l, h1, h2, -⟩
      exact absurd h2 (hn h l h1)

end Memory

theorem byteSum_append (as bs : List Byte) : byteSum (as ++ bs) = byteSum as + byteSum bs := by
  induction as with
  | nil => simp [byteSum]
  | cons a as ih => simp [byteSum, ih, BitVec.add_assoc]

/-- A byte sequence of even length holds half as many words. -/
theorem beWords_length (n : Nat) (bs : List Byte) (h : bs.length = 2 * n) : (beWords bs).length = n := by
  induction n generalizing bs with
  | zero => rw [List.eq_nil_of_length_eq_zero h]; rfl
  | succ n ih =>
    match bs, h with
    | a :: b :: rest, h =>
      simp only [beWords, List.length_cons]
      rw [ih rest (by simp at h; omega)]

/-- Word `i` of a byte sequence is made of its bytes `2i` and `2i + 1` (R32). -/
theorem beWords_get (bs : List Byte) (i : Nat) (h l : Byte) (hh : bs[2 * i]? = some h)
    (hl : bs[2 * i + 1]? = some l) : (beWords bs)[i]? = some (be16 h l) := by
  induction i generalizing bs with
  | zero =>
    match bs, hh, hl with
    | a :: b :: rest, hh, hl => simp_all [beWords]
  | succ i ih =>
    match bs with
    | [] => simp at hh
    | [a] => simp [Nat.mul_add] at hh
    | a :: b :: rest =>
      have e : 2 * (i + 1) = 2 * i + 1 + 1 := by omega
      rw [e] at hh hl
      simp only [beWords, List.getElem?_cons_succ] at hh hl ⊢
      exact ih rest hh hl

/-- Assembling a word from its two bytes gives it back. -/
@[simp] theorem be16_extract (w : Word16) : be16 (w.extractLsb' 8 8) (w.extractLsb' 0 8) = w := by
  ext i hi
  simp only [be16, BitVec.getElem_or, BitVec.getElem_shiftLeft, BitVec.getElem_setWidth,
    BitVec.getLsbD_extractLsb']
  by_cases h8 : i < 8
  · simp [h8, BitVec.getLsbD_eq_getElem hi]
  · simp [h8, show i - 8 < 8 by omega, show 8 + (i - 8) = i by omega, BitVec.getLsbD_eq_getElem hi]

/-- A word's low byte is its second (R32). -/
theorem be16_setWidth (h l : Byte) : (be16 h l).setWidth 8 = l := by
  ext i hi
  simp only [be16, BitVec.getElem_setWidth, BitVec.getLsbD_or, BitVec.getLsbD_shiftLeft, BitVec.getLsbD_setWidth]
  simp [hi, show i < 16 by omega]

/-- A word as a number (R10). -/
theorem be16_toNat (h l : Byte) : (be16 h l).toNat = 256 * h.toNat + l.toNat := by
  have e : be16 h l = h ++ l := by
    apply BitVec.eq_of_getLsbD_eq
    intro i hi
    rw [BitVec.getLsbD_append]
    simp only [be16, BitVec.getLsbD_or, BitVec.getLsbD_shiftLeft, BitVec.getLsbD_setWidth]
    by_cases h8 : i < 8
    · simp [h8, hi]
    · simp only [h8, hi, decide_true, decide_false, Bool.true_and, Bool.not_false,
        show l.getLsbD i = false from BitVec.getLsbD_of_ge _ _ (by omega), Bool.and_false, Bool.or_false]
      simp
      intro _
      omega
  rw [e, BitVec.toNat_append, ← Nat.shiftLeft_add_eq_or_of_lt l.isLt, Nat.shiftLeft_eq]
  omega

/-- The words of the bytes of words are those words. -/
theorem beWords_wordBytes (ws : List Word16) : beWords (ws.flatMap wordBytes) = ws := by
  induction ws with
  | nil => rfl
  | cons w ws ih => simp [wordBytes, beWords] at ih ⊢; exact ih

@[simp] theorem wordBytes_length (w : Word16) : (wordBytes w).length = 2 := rfl

theorem flatMap_wordBytes_length (ws : List Word16) : (ws.flatMap wordBytes).length = 2 * ws.length := by
  induction ws with
  | nil => rfl
  | cons w ws ih => simp [ih]; omega

/-- A frame of `NFIELDS` fields is `CAP` bytes long (R55). -/
theorem frame_length (c : Config) (fs : Reading) (h : fs.length = c.nfields) : (frame c fs).length = c.cap := by
  have := flatMap_wordBytes_length fs
  cases hv : c.variant <;> simp_all [frame, Config.cap, Config.nfields]

end Sys2Proof.Machine
end

