-- ==== Sys2Proof/Laws/Decode.lean ====
section
/-! SUPPORT. The fields of the selector words, and what the decoder does on a word made of its fields. -/

namespace Sys2Proof

open Machine

variable (rst rxValid : Bool) (off : BitVec 5) (b : Byte)

/-- The bits of a word made of its fields. -/
theorem getLsbD_stepWord (i : Nat) :
    (stepWord rst rxValid off b).getLsbD i =
      if i < 8 then b.getLsbD i
      else if i < 13 then off.getLsbD (i - 8)
      else if i = 13 then rxValid
      else if i = 14 then rst
      else false := by
  have h : (stepWord rst rxValid off b).getLsbD i =
      BitVec.getLsbD (w := 1 + 1 + 1 + 5 + 8)
        ((((0 : BitVec 1) ++ BitVec.ofBool rst) ++ BitVec.ofBool rxValid) ++ off ++ b) i := rfl
  rw [h, BitVec.getLsbD_append, BitVec.getLsbD_append, BitVec.getLsbD_append, BitVec.getLsbD_append]
  by_cases h8 : i < 8
  · simp [h8]
  by_cases h13 : i < 13
  · simp [h8, h13, show i - 8 < 5 by omega]
  have h5 : ¬ i - 8 < 5 := by omega
  by_cases e13 : i = 13
  · subst e13; simp
  by_cases e14 : i = 14
  · subst e14; simp
  have h1 : ¬ i - 8 - 5 < 1 := by omega
  have h0 : ¬ i - 8 - 5 - 1 < 1 := by omega
  simp only [h8, h13, h5, e13, e14, h1, h0, if_false]
  simp

@[simp] theorem stepWord_bit15 : (stepWord rst rxValid off b).getLsbD 15 = false := by
  rw [getLsbD_stepWord]; simp

@[simp] theorem stepRst_stepWord : stepRst (stepWord rst rxValid off b) = rst := by
  rw [stepRst, getLsbD_stepWord]; simp

@[simp] theorem stepValid_stepWord : stepValid (stepWord rst rxValid off b) = rxValid := by
  rw [stepValid, getLsbD_stepWord]; simp

@[simp] theorem stepOff_stepWord : stepOff (stepWord rst rxValid off b) = off := by
  apply BitVec.eq_of_getLsbD_eq
  intro i hi
  rw [stepOff, BitVec.getLsbD_extractLsb', getLsbD_stepWord]
  simp [show ¬ 8 + i < 8 by omega, show 8 + i < 13 by omega, hi]

@[simp] theorem stepByte_stepWord : stepByte (stepWord rst rxValid off b) = b := by
  apply BitVec.eq_of_getLsbD_eq
  intro i hi
  rw [stepByte, BitVec.getLsbD_extractLsb', getLsbD_stepWord]
  simp [hi]

theorem getLsbD_encWord (op dl dh : Byte) (i : Nat) :
    (encWord op dl dh).getLsbD i =
      if i < 8 then dh.getLsbD i else if i < 16 then dl.getLsbD (i - 8) else op.getLsbD (i - 16) := by
  have h : (encWord op dl dh).getLsbD i = BitVec.getLsbD (w := 8 + 8 + 8) ((op ++ dl) ++ dh) i := rfl
  rw [h, BitVec.getLsbD_append, BitVec.getLsbD_append]
  by_cases h8 : i < 8
  · simp [h8]
  by_cases h16 : i < 16
  · simp [h8, h16, show i - 8 < 8 by omega]
  simp [h8, h16, show ¬ i - 8 < 8 by omega, show i - 8 - 8 = i - 16 by omega]

@[simp] theorem encOp_encWord (op dl dh : Byte) : encOp (encWord op dl dh) = op := by
  apply BitVec.eq_of_getLsbD_eq
  intro i hi
  rw [encOp, BitVec.getLsbD_extractLsb', getLsbD_encWord]
  simp [show ¬ 16 + i < 8 by omega, show ¬ 16 + i < 16 by omega, hi]

@[simp] theorem encDl_encWord (op dl dh : Byte) : encDl (encWord op dl dh) = dl := by
  apply BitVec.eq_of_getLsbD_eq
  intro i hi
  rw [encDl, BitVec.getLsbD_extractLsb', getLsbD_encWord]
  simp [show ¬ 8 + i < 8 by omega, show 8 + i < 16 by omega, hi]

@[simp] theorem encDh_encWord (op dl dh : Byte) : encDh (encWord op dl dh) = dh := by
  apply BitVec.eq_of_getLsbD_eq
  intro i hi
  rw [encDh, BitVec.getLsbD_extractLsb', getLsbD_encWord]
  simp [hi]

/-- A `STEP` word beside an accumulator: reset first, then idle, then the RX rows at the accumulator's offset. -/
theorem decodeStep_stepWord (c : Config) (m : Memory) (now : Nat) :
    decodeStep c (stepWord rst rxValid off b) m now =
      if rst then .ok .rst else if !rxValid then .ok .idle
      else if off.toNat ≠ m.length then .error .offsetMismatch else decodeRx c m b now := by
  rw [decodeStep, stepWord_bit15, stepRst_stepWord, stepValid_stepWord, stepOff_stepWord, stepByte_stepWord]
  simp

/-- `CAP` is at most 32, so that the five bits of `S[12:8]` hold every resting offset (R14). -/
theorem cap_le (c : Config) : c.cap ≤ 32 := by
  cases hv : c.variant <;> simp [Config.cap, hv]

/-- A resting offset is in the word what it is in the accumulator. -/
theorem stepOff_of_wf (c : Config) (m : Memory) (h : m.length < c.cap) : (BitVec.ofNat 5 m.length).toNat = m.length := by
  have := cap_le c
  simp only [BitVec.toNat_ofNat]
  exact Nat.mod_eq_of_lt (by omega)

end Sys2Proof
end

