-- ==== Sys2Proof/Laws/State.lean ====
section
/-! SUPPORT. What each update of the state leaves in each field: one lemma per field per update. -/

namespace Sys2Proof.Machine

variable (s : State)

@[simp] theorem State.push_cfg (b : Byte) : (s.push b).cfg = s.cfg := rfl
@[simp] theorem State.push_acc (b : Byte) : (s.push b).acc = s.acc.push b := rfl
@[simp] theorem State.push_store (b : Byte) : (s.push b).store = s.store := rfl
@[simp] theorem State.push_ev (b : Byte) : (s.push b).ev = s.ev := rfl
@[simp] theorem State.push_pending (b : Byte) : (s.push b).pending = s.pending := rfl
@[simp] theorem State.push_replies (b : Byte) : (s.push b).replies = s.replies := rfl

@[simp] theorem State.clear_cfg : (s.clear).cfg = s.cfg := rfl
@[simp] theorem State.clear_acc : (s.clear).acc = Memory.clear := rfl
@[simp] theorem State.clear_store : (s.clear).store = s.store := rfl
@[simp] theorem State.clear_ev : (s.clear).ev = s.ev := rfl
@[simp] theorem State.clear_pending : (s.clear).pending = s.pending := rfl
@[simp] theorem State.clear_replies : (s.clear).replies = s.replies := rfl

@[simp] theorem State.raise_cfg (e : Event) : (s.raise e).cfg = s.cfg := rfl
@[simp] theorem State.raise_acc (e : Event) : (s.raise e).acc = s.acc := rfl
@[simp] theorem State.raise_store (e : Event) : (s.raise e).store = s.store := rfl
@[simp] theorem State.raise_ev (e : Event) : (s.raise e).ev = e := rfl
@[simp] theorem State.raise_pending (e : Event) : (s.raise e).pending = s.pending := rfl
@[simp] theorem State.raise_replies (e : Event) : (s.raise e).replies = s.replies := rfl

@[simp] theorem State.storeWrite_cfg (r : Reading) (t : Nat) : (s.storeWrite r t).cfg = s.cfg := rfl
@[simp] theorem State.storeWrite_acc (r : Reading) (t : Nat) : (s.storeWrite r t).acc = s.acc := rfl
@[simp] theorem State.storeWrite_store (r : Reading) (t : Nat) : (s.storeWrite r t).store = { reading := r, ts := t } := rfl
@[simp] theorem State.storeWrite_ev (r : Reading) (t : Nat) : (s.storeWrite r t).ev = s.ev := rfl
@[simp] theorem State.storeWrite_pending (r : Reading) (t : Nat) : (s.storeWrite r t).pending = s.pending := rfl
@[simp] theorem State.storeWrite_replies (r : Reading) (t : Nat) : (s.storeWrite r t).replies = s.replies := rfl

@[simp] theorem State.recover_cfg (e : Event) : (s.recover e).cfg = s.cfg := rfl
@[simp] theorem State.recover_acc (e : Event) : (s.recover e).acc = Memory.clear := rfl
@[simp] theorem State.recover_store (e : Event) : (s.recover e).store = s.store := rfl
@[simp] theorem State.recover_ev (e : Event) : (s.recover e).ev = e := rfl
@[simp] theorem State.recover_pending (e : Event) : (s.recover e).pending = s.pending := rfl
@[simp] theorem State.recover_replies (e : Event) : (s.recover e).replies = s.replies := rfl

@[simp] theorem State.resetBlock_cfg : (s.resetBlock).cfg = s.cfg := rfl
@[simp] theorem State.resetBlock_acc : (s.resetBlock).acc = Memory.clear := rfl
@[simp] theorem State.resetBlock_store : (s.resetBlock).store = Store.zeroed s.cfg := rfl
@[simp] theorem State.resetBlock_ev : (s.resetBlock).ev = .none := rfl
@[simp] theorem State.resetBlock_pending : (s.resetBlock).pending = s.pending := rfl
@[simp] theorem State.resetBlock_replies : (s.resetBlock).replies = s.replies := rfl

@[simp] theorem State.answer_cfg (r : Reply) : (s.answer r).cfg = s.cfg := rfl
@[simp] theorem State.answer_acc (r : Reply) : (s.answer r).acc = s.acc := rfl
@[simp] theorem State.answer_store (r : Reply) : (s.answer r).store = s.store := rfl
@[simp] theorem State.answer_ev (r : Reply) : (s.answer r).ev = s.ev := rfl
@[simp] theorem State.answer_pending (r : Reply) : (s.answer r).pending = s.pending := rfl
@[simp] theorem State.answer_replies (r : Reply) : (s.answer r).replies = s.replies ++ [r] := rfl

@[simp] theorem State.present_cfg (ts : List Transaction) : (s.present ts).cfg = s.cfg := rfl
@[simp] theorem State.present_acc (ts : List Transaction) : (s.present ts).acc = s.acc := rfl
@[simp] theorem State.present_store (ts : List Transaction) : (s.present ts).store = s.store := rfl
@[simp] theorem State.present_ev (ts : List Transaction) : (s.present ts).ev = s.ev := rfl
@[simp] theorem State.present_pending (ts : List Transaction) : (s.present ts).pending = s.pending ++ ts := rfl
@[simp] theorem State.present_replies (ts : List Transaction) : (s.present ts).replies = s.replies := rfl

/-- The offset is the length of the prefix (R16). -/
@[simp] theorem State.off_eq : s.off = s.acc.length := rfl

@[simp] theorem State.storeRead_eq : s.storeRead = s.store := rfl

/-- Reset's memory has the resting form. -/
theorem reset_memory_wf : Memory.wf State.reset.cfg State.reset.acc = true := by decide

/-- Taking a transaction from the queue changes the queue only. -/
theorem State.fetch_cons (t : Transaction) (rest : List Transaction) (h : s.pending = t :: rest) :
    s.fetch = (t, { s with pending := rest }) := by
  simp [State.fetch, h]

/-- With nothing presented, the step takes an IDLE and the state is as it was. -/
theorem State.fetch_nil (h : s.pending = []) : s.fetch = (nothingPresented, s) := by
  simp [State.fetch, h]

@[simp] theorem State.fetch_cfg : s.fetch.2.cfg = s.cfg := by
  unfold State.fetch; split <;> rfl

@[simp] theorem State.fetch_acc : s.fetch.2.acc = s.acc := by
  unfold State.fetch; split <;> rfl

@[simp] theorem State.fetch_store : s.fetch.2.store = s.store := by
  unfold State.fetch; split <;> rfl

@[simp] theorem State.fetch_ev : s.fetch.2.ev = s.ev := by
  unfold State.fetch; split <;> rfl

@[simp] theorem State.fetch_replies : s.fetch.2.replies = s.replies := by
  unfold State.fetch; split <;> rfl

@[simp] theorem State.fetch_pending : s.fetch.2.pending = s.pending.tail := by
  unfold State.fetch; split <;> simp [*]

end Sys2Proof.Machine
end

