-- ==== Sys2Proof/Laws/Ops.lean ====
section
/-! SUPPORT. How a row runs: what `onRow` and the meanings over it can answer. -/

namespace Sys2Proof.Machine

/-- A row answers a next state exactly where it is selected, and then only its effect. -/
theorem onRow_eq_next (i : Instr) (s t u : State) :
    onRow i s t = .next u ↔ i.selected s.cfg s.acc = true ∧ u = t := by
  unfold onRow
  split
  · rename_i h
    simp only [Host.Outcome.next.injEq, h, true_and]
    exact eq_comm
  · simp_all

theorem onRow_selected (i : Instr) (s t : State) (h : i.selected s.cfg s.acc = true) : onRow i s t = .next t := by
  simp [onRow, h]

theorem onRow_unselected (i : Instr) (s t : State) (h : i.selected s.cfg s.acc = false) :
    onRow i s t = .refused (.notSelected i) := by
  simp [onRow, h]

/-- A row never faults. -/
theorem onRow_ne_fault (i : Instr) (s t : State) (f : Fault) : onRow i s t ≠ .fault f := by
  unfold onRow
  split <;> simp

/-- A snapshot answers where there is such a reader, and then with the whole pair. -/
theorem execSnap_eq_next (r : Nat) (s u : State) :
    execSnap r s = .next u ↔ r < s.cfg.nReaders ∧ u = s.answer (.snapshot r s.store) := by
  unfold execSnap
  split
  · rename_i h
    simp only [Host.Outcome.next.injEq, h, true_and, State.storeRead_eq]
    exact eq_comm
  · simp_all

/-- Everything a step can do: it refuses a selector that is no row, or it runs the row that was selected. -/
theorem step_cases (s : State) :
    (∃ i, s.fetch.2.decodeTransaction s.fetch.1 = .ok i ∧ step s = exec i s.fetch.2) ∨
      ∃ why, s.fetch.2.decodeTransaction s.fetch.1 = .error why ∧ step s = .refused (.undecodable why) := by
  unfold step
  split
  · exact .inl ⟨_, ‹_›, rfl⟩
  · exact .inr ⟨_, ‹_›, rfl⟩

@[simp] theorem run_zero (s : State) : run 0 s = .next s := rfl

/-- One more step of a run, at its beginning. -/
theorem run_succ (n : Nat) (s t : State) (h : step s = .next t) : run (n + 1) s = run n t := by
  simp only [run, h]

/-- A run that ends in a state went through a state after its first step. -/
theorem run_succ_eq_next (n : Nat) (s u : State) :
    run (n + 1) s = .next u ↔ ∃ t, step s = .next t ∧ run n t = .next u := by
  simp only [run]
  cases step s <;> simp

/-- Runs compose. -/
theorem run_add (m n : Nat) (s t : State) (h : run m s = .next t) : run (m + n) s = run n t := by
  induction m generalizing s with
  | zero => simp at h; subst h; simp
  | succ m ih =>
    obtain ⟨u, hs, hr⟩ := (run_succ_eq_next m s t).mp h
    rw [show m + 1 + n = m + n + 1 by omega, run_succ _ _ _ hs, ih u hr]

@[simp] theorem events_zero (s : State) : events 0 s = [] := rfl

/-- The events of one more step, at the beginning. -/
theorem events_succ (n : Nat) (s t : State) (h : step s = .next t) :
    events (n + 1) s = if s.stepsBusy then t.ev :: events n t else events n t := by
  simp only [events, h]

/-- Bytes at one clock value are bytes that each have that clock value. -/
theorem presentBytes_eq_presentTimed (now : Nat) (bs : List Byte) :
    presentBytes now bs = presentTimed (bs.map fun b => (b, now)) := by
  simp [presentBytes, presentTimed]

@[simp] theorem length_presentTimed (bs : List (Byte × Nat)) : (presentTimed bs).length = bs.length := by
  simp [presentTimed]

/-- The host's run, one step at its beginning, for each outcome of that step. -/
theorem core_run_succ (M : Host.Core) (n : Nat) (s : M.State) :
    (∀ t, M.step s = .next t → M.run (n + 1) s = M.run n t) ∧
      (∀ f, M.step s = .fault f → M.run (n + 1) s = .fault f) ∧
      ∀ r, M.step s = .refused r → M.run (n + 1) s = .refused r := by
  refine ⟨?_, ?_, ?_⟩ <;> intro x h <;> simp only [Host.Core.run, h]

/-- The run of the claims is the host's run of the machine. -/
theorem run_eq_core (n : Nat) (s : State) : run n s = Host.Core.run Sys2Proof.core n s := by
  induction n generalizing s with
  | zero => rfl
  | succ n ih =>
    obtain ⟨hn, hf, hr⟩ := core_run_succ Sys2Proof.core n s
    cases h : step s with
    | next t => rw [run_succ n s t h, ih t]; exact (hn t h).symm
    | fault f => simp only [run, h]; exact (hf f h).symm
    | refused r => simp only [run, h]; exact (hr r h).symm

end Sys2Proof.Machine
end

