-- ==== Sys2Proof/Laws/PerInstr.lean ====
section
/-! SUPPORT. The family EncodingMatchesTable: an encoded row is of its opcode-table row's format and its word has
that row's fixed bits. -/

namespace Sys2Proof.Laws.EncodingMatchesTable

open Sys2Proof.Machine

/-- For every configuration and accumulator in which the row is selected. -/
def Statement (i : Instr) : Prop :=
  ∀ (c : Config) (m : Memory), i.selected c m = true → (i.tableRow c).admits (encode c m i) = true

/-- The bits of a masked word, against the bits of a pattern. -/
theorem step_bits (v : BitVec 16) (mask pat : Nat)
    (h : ∀ i, i < 16 → (v.getLsbD i && mask.testBit i) = pat.testBit i) :
    (v &&& BitVec.ofNat 16 mask == BitVec.ofNat 16 pat) = true := by
  rw [beq_iff_eq]
  apply BitVec.eq_of_getLsbD_eq
  intro i hi
  rw [BitVec.getLsbD_and, BitVec.getLsbD_ofNat, BitVec.getLsbD_ofNat]
  simp only [hi, decide_true, Bool.true_and]
  exact h i hi

theorem enc_bits (v : BitVec 24) (mask pat : Nat)
    (h : ∀ i, i < 24 → (v.getLsbD i && mask.testBit i) = pat.testBit i) :
    (v &&& BitVec.ofNat 24 mask == BitVec.ofNat 24 pat) = true := by
  rw [beq_iff_eq]
  apply BitVec.eq_of_getLsbD_eq
  intro i hi
  rw [BitVec.getLsbD_and, BitVec.getLsbD_ofNat, BitVec.getLsbD_ofNat]
  simp only [hi, decide_true, Bool.true_and]
  exact h i hi

/-- A word with its `rx_valid` and one offset fixed has that offset in bits 12:8, whatever the byte. -/
theorem step_row (off : BitVec 5) (b : Byte) (pat : Nat)
    (h : ∀ i, i < 16 → (if i < 8 then false else if i < 13 then off.getLsbD (i - 8) else i == 13) = pat.testBit i) :
    (stepWord false true off b &&& BitVec.ofNat 16 0x7F00 == BitVec.ofNat 16 pat) = true := by
  apply step_bits
  intro i hi
  rw [getLsbD_stepWord, ← h i hi]
  interval_cases i <;> simp [Nat.testBit]

theorem rst : Statement .rst := by
  intro c m _
  show (stepWord true false 0 0 &&& BitVec.ofNat 16 0x4000 == BitVec.ofNat 16 0x4000) = true
  decide

theorem idle : Statement .idle := by
  intro c m _
  show (stepWord false false _ 0 &&& BitVec.ofNat 16 0x6000 == BitVec.ofNat 16 0) = true
  apply step_bits
  intro i hi
  rw [getLsbD_stepWord]
  interval_cases i <;> simp [Nat.testBit]

theorem rxSync1Hit : Statement .rxSync1Hit := by
  intro c m _
  show (stepWord false true 0 sync1 &&& BitVec.ofNat 16 0x7FFF == BitVec.ofNat 16 0x2042) = true
  decide

theorem rxSync1Miss (b : Byte) : Statement (.rxSync1Miss b) := fun _ _ _ => step_row 0 b 0x2000 (by decide)

theorem rxSync2Hit : Statement .rxSync2Hit := by
  intro c m _
  show (stepWord false true 1 sync2 &&& BitVec.ofNat 16 0x7FFF == BitVec.ofNat 16 0x214D) = true
  decide

theorem rxSync2Miss (b : Byte) : Statement (.rxSync2Miss b) := fun _ _ _ => step_row 1 b 0x2100 (by decide)

theorem rxLenHi (b : Byte) : Statement (.rxLenHi b) := fun _ _ _ => step_row 2 b 0x2200 (by decide)

theorem rxLenLoOk (b : Byte) : Statement (.rxLenLoOk b) := fun _ _ _ => step_row 3 b 0x2300 (by decide)

theorem rxLenLoBad (b : Byte) : Statement (.rxLenLoBad b) := fun _ _ _ => step_row 3 b 0x2300 (by decide)

theorem rxBody (b : Byte) : Statement (.rxBody b) := by
  intro c m _
  show (stepWord false true _ b &&& BitVec.ofNat 16 0x6000 == BitVec.ofNat 16 0x2000) = true
  apply step_bits
  intro i hi
  rw [getLsbD_stepWord]
  interval_cases i <;> simp [Nat.testBit]

theorem rxLastOk (b : Byte) (now : Nat) : Statement (.rxLastOk b now) := by
  rintro ⟨v, tsW, noDataTs, nReaders, opMode⟩ m _
  cases v
  · exact step_row 31 b 0x3F00 (by decide)
  · exact step_row 29 b 0x3D00 (by decide)

theorem rxLastBad (b : Byte) : Statement (.rxLastBad b) := by
  rintro ⟨v, tsW, noDataTs, nReaders, opMode⟩ m _
  cases v
  · exact step_row 31 b 0x3F00 (by decide)
  · exact step_row 29 b 0x3D00 (by decide)

theorem update (r : Reading) (t : Nat) : Statement (.update r t) := fun _ _ _ => rfl

theorem snap (r : Nat) : Statement (.snap r) := fun _ _ _ => rfl

theorem enc (op dl dh : Byte) : Statement (.enc op dl dh) := by
  intro c m _
  show (encWord op dl dh &&& BitVec.ofNat 24 0 == BitVec.ofNat 24 0) = true
  apply enc_bits
  intro i hi
  simp

theorem wake : Statement .wake := by
  intro c m _
  show (encWord opSleep 1 0 &&& BitVec.ofNat 24 0xFFFFFF == BitVec.ofNat 24 0xE40100) = true
  decide

theorem setmode (active : Bool) : Statement (.setmode active) := by
  intro c m _
  show (encWord c.opMode (if active then 1 else 0) 0 &&& BitVec.ofNat 24 0xFFFEFF ==
    BitVec.ofNat 24 (c.opMode.toNat <<< 16)) = true
  apply enc_bits
  intro i hi
  rw [getLsbD_encWord, Nat.testBit_shiftLeft, BitVec.testBit_toNat]
  cases active <;> interval_cases i <;> simp [Nat.testBit]

end Sys2Proof.Laws.EncodingMatchesTable
end

