-- ==== Sys2Proof/Tests/Slice0.lean ====
section
/-! SUPPORT. Tests: the well-formedness checks, words written out from R69's encodings, single steps from the spec's
vectors (95_test_vectors.md), and for each statement with hypotheses a state and operands that meet them. -/

namespace Sys2Proof.Tests

open Sys2Proof.Machine

/-- The reset state with an accumulated prefix. -/
def st (acc : Memory) : State := { State.reset with acc := acc }

/-- The same for a V30 block. -/
def st30 (acc : Memory) : State := { st acc with cfg := { Config.default with variant := .v30 } }

/-- The first `k` bytes of frame Z, whose fields are all 0 (95_test_vectors.md section 0). -/
def zPrefix (k : Nat) : Memory := canonicalPrefix .default k

/-- The same for the V30 frame of vector V1. -/
def zPrefix30 (k : Nat) : Memory := canonicalPrefix { Config.default with variant := .v30 } k

/-- The fields of frame A (95_test_vectors.md section 0). -/
def fieldsA : Reading := [16, 25, 30, 15, 23, 28, 3000, 900, 200, 20, 5, 1, 0]

/-- A state with transactions presented. -/
def withPending (s : State) (ts : List Transaction) : State := { s with pending := ts }

def nextOf : Result → Option State
  | .next s => some s
  | .fault _ => none
  | .refused _ => none

def rowOf : Except DecodeReject Instr → Option Instr
  | .ok i => some i
  | .error _ => none

/-! ### WellFormed refuses an ill-formed term, check by check -/

theorem smoke_sync1Miss : (Instr.rxSync1Miss 0x42).wf .default = false := by decide
theorem smoke_sync2Miss : (Instr.rxSync2Miss 0x4D).wf .default = false := by decide
theorem smoke_lenLoOk : (Instr.rxLenLoOk 0x1A).wf .default = false := by decide
theorem smoke_lastOk : (Instr.rxLastOk 0 4294967296).wf .default = false := by decide
theorem smoke_update_fields : (Instr.update [0] 0).wf .default = false := by decide
theorem smoke_update_ts : (Instr.update (List.replicate 13 0) 4294967296).wf .default = false := by decide
theorem smoke_snap : (Instr.snap 16).wf .default = false := by decide
theorem smoke_config_width : (Config.wf { Config.default with tsW := 0 }) = false := by decide
theorem smoke_config_sentinel : (Config.wf { Config.default with noDataTs := 4294967296 }) = false := by decide
theorem smoke_config_readers : (Config.wf { Config.default with nReaders := 0 }) = false := by decide

/-! ### Words from R69: `S` = rst, rx_valid, off (5 bits), rx_byte; `E` = cmd_op, cmd_dl, cmd_dh -/

theorem test_decode_rst : decodeTableWord 16 0b0_1_0_00000_00000000 = some .rst := by decide
theorem test_decode_rst_overrides : decodeTableWord 16 0b0_1_1_00001_01001101 = some .rst := by decide
theorem test_decode_idle : decodeTableWord 16 0b0_0_0_11111_10101010 = some .idle := by decide
theorem test_decode_sync1Hit : decodeTableWord 16 0b0_0_1_00000_01000010 = some .rxSync1Hit := by decide
theorem test_decode_sync1Miss : decodeTableWord 16 0b0_0_1_00000_01001101 = some (.rxSync1Miss 0x4D) := by decide
theorem test_decode_sync2Hit : decodeTableWord 16 0b0_0_1_00001_01001101 = some .rxSync2Hit := by decide
theorem test_decode_sync2Miss : decodeTableWord 16 0b0_0_1_00001_01000010 = some (.rxSync2Miss 0x42) := by decide
theorem test_decode_lenHi : decodeTableWord 16 0b0_0_1_00010_01000010 = some (.rxLenHi 0x42) := by decide
theorem test_decode_lenLoOk : decodeTableWord 16 0b0_0_1_00011_00011100 = some (.rxLenLoOk 0x1C) := by decide
theorem test_decode_lenLoBad : decodeTableWord 16 0b0_0_1_00011_00011101 = some (.rxLenLoBad 0x1D) := by decide
theorem test_decode_body_first : decodeTableWord 16 0b0_0_1_00100_01000010 = some (.rxBody 0x42) := by decide
theorem test_decode_body_last : decodeTableWord 16 0b0_0_1_11110_00000011 = some (.rxBody 0x03) := by decide
theorem test_decode_lastOk : decodeTableWord 16 0b0_0_1_11111_10101011 = some (.rxLastOk 0xAB 1) := by decide
theorem test_decode_lastBad : decodeTableWord 16 0b0_0_1_11111_10101100 = some (.rxLastBad 0xAC) := by decide
theorem test_decode_bit15 : decodeTableWord 16 0b1_0_0_00000_00000000 = none := by decide
theorem test_decode_enc : decodeTableWord 24 0b00000001_00000010_00000011 = some (.enc 1 2 3) := by decide
theorem test_decode_wake : decodeTableWord 24 0b11100100_00000001_00000000 = some .wake := by decide
theorem test_decode_setmode : decodeTableWord 24 0b11100001_00000001_00000000 = some (.setmode true) := by decide
theorem test_decode_snap : rowOf (decode .default (.reader 1)) = some (.snap 1) := by decide
theorem test_decode_v30_beyond :
    rowOf (decode (st30 []).cfg (.step 0b0_0_1_11110_00000000 (List.replicate 30 0) 0)) = none := by decide

/-! ### A presented table word is the next step's transaction -/

theorem test_fetch_word_step : step (State.reset.withFetchWord 16 0x2042) = exec .rxSync1Hit (st []) := by rfl
theorem test_fetch_word_enc :
    (nextOf (step (State.reset.withFetchWord 24 0xE40100))).map (·.replies) =
      some [.command [0x42, 0x4D, 0xE4, 0x00, 0x01, 0x01, 0x74]] := by decide

/-! ### Single steps (vectors S, T, E, Z of 95_test_vectors.md) -/

/-- Z1. -/
theorem test_rst :
    nextOf (exec .rst { st (zPrefix 20) with store := { reading := fieldsA, ts := 100 } }) = some (st []) := by decide
/-- S23. -/
theorem test_idle : nextOf (exec .idle { st (zPrefix 17) with ev := .errChecksum }) = some (st (zPrefix 17)) := by decide
/-- S1. -/
theorem test_sync1Hit : (nextOf (exec .rxSync1Hit (st []))).map (·.acc) = some [0x42] := by decide
/-- S2. -/
theorem test_sync1Miss : nextOf (exec (.rxSync1Miss 0x4D) (st [])) = some (st []) := by decide
/-- S4. -/
theorem test_sync2Hit : (nextOf (exec .rxSync2Hit (st [0x42]))).map (·.acc) = some [0x42, 0x4D] := by decide
/-- S5: the second 0x42 is dropped. -/
theorem test_sync2Miss :
    nextOf (exec (.rxSync2Miss 0x42) (st [0x42])) = some { st [] with ev := .errSync2 } := by decide
/-- S8. -/
theorem test_lenHi : (nextOf (exec (.rxLenHi 0x42) (st [0x42, 0x4D]))).map (·.acc) = some [0x42, 0x4D, 0x42] := by decide
/-- S10. -/
theorem test_lenLoOk :
    (nextOf (exec (.rxLenLoOk 0x1C) (st [0x42, 0x4D, 0x00]))).map (·.acc) = some [0x42, 0x4D, 0x00, 0x1C] := by decide
/-- S12: a byte-swapped length. -/
theorem test_lenLoBad :
    nextOf (exec (.rxLenLoBad 0x00) (st [0x42, 0x4D, 0x1C])) = some { st [] with ev := .errLength } := by decide
/-- S13: the V30 length on a V32 block. -/
theorem test_lenLoBad_v30_length :
    (nextOf (exec (.rxLenLoBad 0x1A) (st [0x42, 0x4D, 0x00]))).map (·.ev) = some .errLength := by decide
/-- S16. -/
theorem test_body :
    (nextOf (exec (.rxBody 0x42) (st [0x42, 0x4D, 0x00, 0x1C]))).map (·.acc) =
      some [0x42, 0x4D, 0x00, 0x1C, 0x42] := by decide
/-- S22: frame A's last byte. -/
theorem test_lastOk :
    nextOf (exec (.rxLastOk 0x60 7) (st ((frame .default fieldsA).take 31))) =
      some { st [] with store := { reading := fieldsA, ts := 7 }, ev := .frameOk } := by decide
/-- V1: the V30 frame. -/
theorem test_lastOk_v30 :
    (nextOf (exec (.rxLastOk 0xA9 7) (st30 (zPrefix30 29)))).map (·.store) =
      some { reading := List.replicate 12 0, ts := 7 } := by decide
/-- S21. -/
theorem test_lastBad :
    nextOf (exec (.rxLastBad 0xAC) (st (zPrefix 31))) = some { st [] with ev := .errChecksum } := by decide
/-- T5: a smaller timestamp is stored as given. -/
theorem test_update :
    (nextOf (exec (.update fieldsA 40) { st [] with store := { reading := [], ts := 100 } })).map (·.store) =
      some { reading := fieldsA, ts := 40 } := by decide
/-- T1. -/
theorem test_snap :
    (nextOf (exec (.snap 1) (st []))).map (·.replies) =
      some [.snapshot 1 { reading := List.replicate 13 0, ts := 0 }] := by decide
/-- E5: the wire order is `op dh dl`. -/
theorem test_enc :
    (nextOf (exec (.enc 0x01 0x02 0x03) (st []))).map (·.replies) =
      some [.command [0x42, 0x4D, 0x01, 0x03, 0x02, 0x00, 0x95]] := by decide
/-- E1. -/
theorem test_wake :
    (nextOf (exec .wake (st []))).map (·.replies) =
      some [.command [0x42, 0x4D, 0xE4, 0x00, 0x01, 0x01, 0x74]] := by decide
/-- E6, for `OP_MODE` = 0xE1. -/
theorem test_setmode_active :
    (nextOf (exec (.setmode true) (st []))).map (·.replies) =
      some [.command [0x42, 0x4D, 0xE1, 0x00, 0x01, 0x01, 0x71]] := by decide
/-- E7. -/
theorem test_setmode_passive :
    (nextOf (exec (.setmode false) (st []))).map (·.replies) =
      some [.command [0x42, 0x4D, 0xE1, 0x00, 0x00, 0x01, 0x70]] := by decide

/-! ### Layouts and names -/

/-- 95_test_vectors.md section 0: frame A on a read port. -/
theorem test_read_port :
    ({ st [] with store := { reading := fieldsA, ts := 0 } } : State).rdReading 0 =
      0x0000000100050014_00C803840BB8001C_0017000F001E0019_0010 := by decide
/-- W6. -/
theorem test_cmd_frame : cmdFrame 0xE4 0x01 0x00 = 0x424DE400010174 := by decide
/-- 95_test_vectors.md section 0: the bytes of frame C's end. -/
theorem test_frame_checksum :
    (frame .default [1, 2, 3, 4, 5, 6, 7, 8, 9, 10, 11, 12, 13]).drop 28 = [0x00, 0x0D, 0x01, 0x06] := by decide
/-- R19: particles above 0.3 µm are field 6. -/
theorem test_named_field : readField fieldsA .cnt03 = some 3000 := by decide
/-- 30_encoding.md R70: `CLK` is no step. -/
theorem test_assemble :
    assemble .default 0 [.rst, .clk 100, .rx 0x42, .snap 0, .setmode true] =
      [.sync true false 0 0, .sync false true 0x42 100, .snap 0, .enc 0xE1 0x01 0x00] := by decide

/-! ### Witnesses: hypotheses met together -/

theorem witness_ResetDropsThePresentedByte :
    (withPending (st (zPrefix 5)) [.sync true true 0x42 5]).pending = .sync true true 0x42 5 :: [] := by decide
theorem witness_Sync1HitCompletes : (st []).off = 0 := by decide
theorem witness_Sync1MissCompletes : (st []).off = 0 ∧ (0x4D : Byte) ≠ 0x42 := by decide
theorem witness_Sync2HitCompletes : (st [0x42]).acc = [0x42] := by decide
theorem witness_Sync2MissCompletes : (st [0x42]).off = 1 ∧ (0x42 : Byte) ≠ 0x4D := by decide
theorem witness_LenHiCompletes : (st [0x42, 0x4D]).off = 2 := by decide
theorem witness_LenLoOkCompletes :
    (st (zPrefix 3)).off = 3 ∧ (st (zPrefix 3)).acc[2]? = some 0x00 ∧
      be16 0x00 0x1C = (st (zPrefix 3)).cfg.lenExpected := by decide
theorem witness_LenLoOkCompletes_v30 :
    (st30 (zPrefix30 3)).off = 3 ∧ (st30 (zPrefix30 3)).acc[2]? = some 0x00 ∧
      be16 0x00 0x1A = (st30 (zPrefix30 3)).cfg.lenExpected := by decide
theorem witness_LenLoBadCompletes :
    (st (zPrefix 3)).off = 3 ∧ (st (zPrefix 3)).acc[2]? = some 0x00 ∧
      be16 0x00 0x1D ≠ (st (zPrefix 3)).cfg.lenExpected := by decide
theorem witness_BodyCompletes_first : 4 ≤ (st (zPrefix 4)).off ∧ (st (zPrefix 4)).off ≤ (st []).cfg.cap - 2 := by decide
theorem witness_BodyCompletes_last : 4 ≤ (st (zPrefix 30)).off ∧ (st (zPrefix 30)).off ≤ (st []).cfg.cap - 2 := by decide
theorem witness_BodyCompletes_v30 :
    4 ≤ (st30 (zPrefix30 28)).off ∧ (st30 (zPrefix30 28)).off ≤ (st30 []).cfg.cap - 2 := by decide
theorem witness_LastOkCompletes :
    (st (zPrefix 31)).off = (st []).cfg.cap - 1 ∧ (st (zPrefix 31)).acc[(st []).cfg.cap - 2]? = some 0x00 ∧
      be16 0x00 0xAB = byteSum ((st (zPrefix 31)).acc.take ((st []).cfg.cap - 2)) := by decide
theorem witness_LastOkCompletes_v30 :
    (st30 (zPrefix30 29)).off = (st30 []).cfg.cap - 1 ∧
      (st30 (zPrefix30 29)).acc[(st30 []).cfg.cap - 2]? = some 0x00 ∧
      be16 0x00 0xA9 = byteSum ((st30 (zPrefix30 29)).acc.take ((st30 []).cfg.cap - 2)) := by decide
theorem witness_LastBadCompletes :
    (st (zPrefix 31)).off = (st []).cfg.cap - 1 ∧ (st (zPrefix 31)).acc[(st []).cfg.cap - 2]? = some 0x00 ∧
      be16 0x00 0xAC ≠ byteSum ((st (zPrefix 31)).acc.take ((st []).cfg.cap - 2)) := by decide
theorem witness_UnselectedRowIsRefused : Instr.rxSync2Hit.selected (st []).cfg (st []).acc = false := by decide
theorem witness_SnapCompletes : 0 < (st []).cfg.nReaders ∧ 15 < (st []).cfg.nReaders := by decide
theorem witness_SnapOfNoReaderFaults : (st []).cfg.nReaders ≤ 16 := by decide
theorem witness_SnapshotAfterFrameOkReturnsTheFrame :
    (nextOf (exec (.rxLastOk 0xAB 9) (st (zPrefix 31)))).isSome = true ∧ 0 < (st []).cfg.nReaders := by decide
theorem witness_SentinelCollisionReadsAsNoData :
    (nextOf (exec (.rxLastOk 0xAB 0) (st (zPrefix 31)))).map (fun t => t.store.noData t.cfg) = some true ∧
      (nextOf (exec (.rxLastOk 0xAB 9) (st (zPrefix 31)))).map (fun t => t.store.noData t.cfg) = some false := by decide
theorem witness_CommandFrameLayout : 0 < 7 ∧ 6 < 7 := by decide
theorem witness_CommandLoopedBackFailsTheLength :
    (st []).acc = [] ∧ (st []).pending = [] ∧ (0xE4 : Byte) ≠ 0 := by decide
theorem witness_StoringRowsFrame :
    (nextOf (exec .rxSync1Hit (st []))).isSome ∧ (nextOf (exec .rxSync2Hit (st [0x42]))).isSome ∧
      (nextOf (exec (.rxLenHi 0) (st (zPrefix 2)))).isSome ∧ (nextOf (exec (.rxLenLoOk 0x1C) (st (zPrefix 3)))).isSome ∧
      (nextOf (exec (.rxBody 0) (st (zPrefix 30)))).isSome := by decide
theorem witness_RecoveryFrame :
    (nextOf (exec (.rxSync2Miss 0) (st [0x42]))).isSome ∧ (nextOf (exec (.rxLenLoBad 0) (st (zPrefix 3)))).isSome ∧
      (nextOf (exec (.rxLastBad 0) (st (zPrefix 31)))).isSome := by decide
theorem witness_NonStoringRowsFrame :
    (nextOf (exec .idle (st []))).isSome ∧ (nextOf (exec (.rxSync1Miss 0) (st []))).isSome ∧
      (nextOf (exec (.update [] 0) (st []))).isSome ∧ (nextOf (exec (.snap 0) (st []))).isSome ∧
      (nextOf (exec (.enc 0 0 0) (st []))).isSome ∧ (nextOf (exec .wake (st []))).isSome ∧
      (nextOf (exec (.setmode true) (st []))).isSome := by decide
theorem witness_NoRowChangesTheParameters : (nextOf (exec .idle (st []))).isSome = true := by decide
theorem witness_DecoderGivesSelectedRows :
    (rowOf (decode .default (.step 0x3FAB (zPrefix 31) 5))).isSome = true ∧
      (rowOf (decode .default (.enc 0xE10000))).isSome = true ∧ rowOf (decode .default (.reader 15)) = some (.snap 15) ∧
      rowOf (decode .default (.reader 16)) = some (.snap 16) := by decide
theorem witness_DecodeOfEncodeIsTheRow :
    (zPrefix 31).length < Config.default.cap ∧ (Instr.rxLastOk 0xAB 9).wf .default = true ∧
      (Instr.rxLastOk 0xAB 9).selected .default (zPrefix 31) = true ∧ internalRow (.rxLastOk 0xAB 9) = false ∧
      (Instr.rxBody 0x42).selected .default (zPrefix 30) = true ∧ internalRow (.enc 0xE4 1 0) = false := by decide
theorem witness_FieldsDecodeAtTheirOffsets :
    (frame .default fieldsA).length = Config.default.cap ∧ 0 < Config.default.nfields ∧
      12 < Config.default.nfields := by decide
theorem witness_StepRunsTheDecodedRow :
    (withPending (st []) [.sync false true 0x42 5]).pending = .sync false true 0x42 5 :: [] ∧
      rowOf (decode (st []).cfg (Transaction.selector (st []).acc (.sync false true 0x42 5))) = some .rxSync1Hit ∧
      (st []).pending = [] := by decide
theorem witness_StepRunsTheDecodedRow_rejects :
    rowOf (decode (st30 []).cfg (Transaction.selector (List.replicate 30 0) (.sync false true 0x42 5))) = none := by decide
theorem witness_SynchronizerIsTotal : (st []).off < (st []).cfg.cap ∧ (st (zPrefix 31)).off < (st []).cfg.cap := by decide
theorem witness_StepAlwaysCompletes :
    (withPending (st (zPrefix 31)) [.snap 15]).wf = true ∧ (Transaction.snap 15).valid (st []).cfg = true := by decide
theorem witness_StepKeepsInvariant :
    (withPending (st (zPrefix 31)) [.sync false true 0xAB 5]).inv = true ∧
      (nextOf (step (withPending (st (zPrefix 31)) [.sync false true 0xAB 5]))).isSome = true := by decide
theorem witness_PresentedTransactionIsConsumedOnce :
    (nextOf (step (withPending (st []) [.snap 0, .snap 1]))).map (·.pending) = some [.snap 1] := by decide
theorem witness_OnlyResetAndValidFramesWriteTheStore :
    (nextOf (step (withPending (st []) [.snap 0]))).isSome ∧
      (nextOf (step (withPending (st []) [.sync true false 0 5]))).isSome ∧
      (nextOf (step (withPending (st (zPrefix 31)) [.sync false true 0xAB 5]))).isSome ∧
      5 < 2 ^ (st []).cfg.tsW := by decide
theorem witness_EventNamesTheRowOfItsStep :
    (nextOf (step (withPending (st [0x42]) [.sync false true 0 5]))).map (·.ev) = some .errSync2 ∧
      (nextOf (step (withPending (st (zPrefix 3)) [.sync false true 0 5]))).map (·.ev) = some .errLength ∧
      (nextOf (step (withPending (st (zPrefix 31)) [.sync false true 0 5]))).map (·.ev) = some .errChecksum ∧
      (nextOf (step (withPending (st (zPrefix 31)) [.sync false true 0xAB 5]))).map (·.ev) = some .frameOk := by decide
theorem witness_ReadPortLayout : (st []).wf = true ∧ 0 < (st []).cfg.nfields ∧ 12 < (st []).cfg.nfields := by decide
theorem witness_BodyBytesNeverChangeThePath :
    4 ≤ (st (zPrefix 4)).off ∧
      (st (zPrefix 4)).off + (List.replicate 27 ((0x42 : Byte), 5)).length < (st []).cfg.cap ∧
      (st (zPrefix 4)).pending = [] ∧ (st (zPrefix 4)).ev = .none := by decide
theorem witness_ValidFrameIsRecognised :
    (st []).acc = [] ∧ (st []).pending = [] ∧ fieldsA.length = (st []).cfg.nfields ∧
      (List.range 32).length = (st []).cfg.cap ∧ (List.range 32)[(st []).cfg.cap - 1]? = some 31 ∧
      31 < 2 ^ (st []).cfg.tsW := by decide
theorem witness_FrameTimestampIsNotBeforeItsFirstByte :
    (st []).acc = [] ∧ (st []).pending = [] ∧ fieldsA.length = (st []).cfg.nfields ∧
      (List.replicate 32 9).length = (st []).cfg.cap ∧ (3 :: List.replicate 32 9).Pairwise (· ≤ ·) ∧
      ∀ now ∈ List.replicate 32 9, now < 2 ^ (st []).cfg.tsW := by decide
theorem witness_GarbageLeavesOffsetZeroOrOne :
    (st []).acc = [] ∧ (st []).pending = [] ∧
      hasMarker ([((0x00 : Byte), 7), (0x42, 3)].map (·.1)) = false ∧ trailingSync1 [0x00, 0x42] % 2 = 1 ∧
      hasMarker ([((0x42 : Byte), 1), (0x42, 2)].map (·.1)) = false ∧ trailingSync1 [0x42, 0x42] % 2 = 0 := by decide
theorem witness_ResyncBlindSpots :
    (st []).acc = [] ∧ (st []).pending = [] ∧
      ([(0x42, 1), (0x42, 2)].map (·.1) = [0x42, (0x42 : Byte)] ∧ (0x42 : Byte) ≠ 0x4D) ∧
      ([(0x42, 1), (0x4D, 2), (0x42, 3), (0x4D, 4)].map (·.1) = [0x42, 0x4D, 0x42, (0x4D : Byte)] ∧
        be16 0x42 0x4D ≠ (st []).cfg.lenExpected) := by decide
theorem witness_ResyncBlindSpots_checksum :
    let bs := (zPrefix 31 ++ [0xAC]).map fun b => (b, 5)
    bs.length = (st []).cfg.cap ∧ prefixOk (st []).cfg (bs.map (·.1)) = true ∧
      Memory.checksumMatches (st []).cfg (bs.map (·.1)) = false := by decide
theorem witness_FrameAfterTruncatedCandidate :
    ((st (zPrefix 1)).inv = true ∧ (st (zPrefix 1)).off = 1) ∧ ((st (zPrefix 2)).inv = true ∧ (st (zPrefix 2)).off = 2) ∧
      ((st (zPrefix 3)).inv = true ∧ (st (zPrefix 3)).off = 3) ∧ fieldsA.length = (st []).cfg.nfields := by decide
theorem witness_FrameAfterTruncatedCandidate_long :
    (st (zPrefix 4)).inv = true ∧ (st (zPrefix 31)).inv = true ∧
      Memory.checksumMatches .default (zPrefix 31 ++ (frame .default fieldsA).take 1) = false ∧
      Memory.checksumMatches .default (zPrefix 4 ++ (frame .default (0x424D :: 0x001C ::
        List.replicate 11 0)).take 28) = false ∧
      Memory.checksumMatches .default (zPrefix 4 ++ (frame .default
        (List.replicate 11 0 ++ [0x0156, 0])).take 28) = true := by decide
theorem witness_IdleStepsNeverMatter :
    (st []).wf = true ∧ (st []).pending = [] ∧
      ∀ x ∈ [Transaction.sync false true 0x42 1, .sync false false 0 2, .snap 0], x.valid (st []).cfg = true := by decide
theorem witness_ReadersAndEncoderNeverDisturbTheBlock :
    (st []).wf = true ∧ (st []).pending = [] ∧
      ∀ x ∈ [Transaction.sync false true 0x42 1, .enc 1 2 3, .snap 15], x.valid (st []).cfg = true := by decide
theorem witness_SnapshotsAreUntorn :
    ∃ t, run 1 (withPending (st []) [.snap 3]) = .next t ∧
      Reply.snapshot 3 (Store.zeroed .default) ∈ t.replies.drop (withPending (st []) [.snap 3]).replies.length :=
  ⟨_, rfl, by decide⟩
theorem witness_SnapshotsAtAnEdgeReturnTheOldPair :
    (withPending (st []) [.snap 0, .snap 15, .sync true false 0 1]).pending =
        (Edge.mk true false 0 1 [0, 15]).transactions ++ [] ∧
      ∀ r ∈ [0, 15], r < (st []).cfg.nReaders := by decide
theorem witness_TimestampNeverDecreases :
    (clockValues [.sync false true 0x42 1, .snap 0, .sync false false 0 2]).Pairwise (· ≤ ·) ∧
      (∀ now ∈ clockValues [.sync false true 0x42 1, .snap 0, .sync false false 0 2],
        (st []).store.ts ≤ now ∧ now < 2 ^ (st []).cfg.tsW) ∧
      (nextOf (run 3 (withPending (st []) [.sync false true 0x42 1, .snap 0, .sync false false 0 2]))).isSome ∧
      ∀ v b now, Transaction.sync true v b now ∉
        [Transaction.sync false true 0x42 1, .snap 0, .sync false false 0 2] :=
  ⟨by decide, by decide, by decide, by simp⟩
theorem witness_FrameChecksumNeverWraps :
    (frame .default fieldsA).length = Config.default.cap ∧ prefixOk .default (frame .default fieldsA) = true ∧
      (zPrefix 30 ++ [0xFF, 0xFF]).length = Config.default.cap ∧ prefixOk .default (zPrefix 30 ++ [0xFF, 0xFF]) = true ∧
      Memory.read16 (zPrefix 30 ++ [0xFF, 0xFF]) (Config.default.cap - 2) = some 0xFFFF ∧
      0x1A91 < (0xFFFF : Word16).toNat := by decide
theorem witness_FrameChecksumNeverWraps_v30 :
    (zPrefix30 28 ++ [0x00, 0xA9]).length = (st30 []).cfg.cap ∧
      prefixOk (st30 []).cfg (zPrefix30 28 ++ [0x00, 0xA9]) = true := by decide

end Sys2Proof.Tests
end

section
/-! The obligations of 00_scope.md: a reader index without a snapshot port. -/

namespace Sys2Proof.Machine

/-- The transaction SNAP means `execSnap`. -/
theorem exec_snap (r : Nat) (s : State) : exec (.snap r) s = execSnap r s := rfl

/-- A snapshot faults exactly where there is no such reader (R7), and then with that reader's index; the companion of
`execSnap_eq_next`. -/
theorem execSnap_eq_fault (r : Nat) (s : State) (f : Fault) :
    execSnap r s = .fault f ↔ s.cfg.nReaders ≤ r ∧ f = .noSuchReader r := by
  unfold execSnap
  split
  · next hport => simp [Nat.not_le.mpr hport]
  · next hnone => simp [Nat.not_lt.mp hnone, eq_comm]

/-- Settles O19: SNAP means `execSnap`, which faults at every index that is not below `N_READERS`. -/
theorem snapOfNoReaderFaults : Obligations.SnapOfNoReaderFaults := by
  intro s r hr
  rw [exec_snap]
  exact (execSnap_eq_fault r s _).mpr ⟨hr, rfl⟩

end Sys2Proof.Machine
end

section
/-! The accumulator and the store apart: what R17 asks of the accumulated bytes, what a byte stored behind them must
be to keep it, and what a pair must be to fit the store's registers. -/

namespace Sys2Proof.Machine

theorem phase_eq_seekStart1 (c : Config) (off : Nat) : phase c off = .seekStart1 ↔ off = 0 := by
  unfold phase
  split_ifs <;> simp [*]

theorem phase_eq_seekStart2 (c : Config) (off : Nat) : phase c off = .seekStart2 ↔ off = 1 := by
  unfold phase
  split_ifs <;> simp [*]

theorem phase_eq_readBody (c : Config) (off : Nat) : phase c off = .readBody ↔ 4 ≤ off ∧ off < c.cap := by
  unfold phase
  split_ifs <;> simp <;> omega

namespace Memory

/-- Where a pushed byte reads back, and where the accumulator reads as before. -/
theorem read_push (m : Memory) (b : Byte) (a : Nat) :
    (m.push b).read a = if a = m.length then some b else m.read a := by
  split
  · next h => rw [h, read_push_at_off]
  · next h => exact read_push_elsewhere m b a h

/-- A push leaves the words below the offset as they read. -/
theorem read16_push_of_lt (m : Memory) (b : Byte) (a : Nat) (h : a + 1 < m.length) :
    (m.push b).read16 a = m.read16 a := by
  simp only [read16, read_push, if_neg (show a ≠ m.length by omega), if_neg (show a + 1 ≠ m.length by omega)]

/-- The length condition of R79, with the high byte it reads. -/
theorem lengthMatches_iff (c : Config) (m : Memory) (b : Byte) :
    m.lengthMatches c b = true ↔ ∃ h, m.read 2 = some h ∧ be16 h b = c.lenExpected := by
  unfold lengthMatches
  split <;> simp [*]

/-- What R74, R76 and R79 ask of a byte that is stored at the offset: at a start byte's offset it is that start
byte, and at the length's low byte it completes the expected length. -/
def Accepts (c : Config) (m : Memory) (b : Byte) : Prop :=
  (m.length = 0 → b = sync1) ∧ (m.length = 1 → b = sync2) ∧ (m.length = 3 → m.lengthMatches c b = true)

end Memory

/-- The invariants of R17 as propositions. -/
theorem prefixOk_iff (c : Config) (m : Memory) :
    prefixOk c m = true ↔ (1 ≤ m.length → m.read 0 = some sync1) ∧ (2 ≤ m.length → m.read 1 = some sync2) ∧
      (4 ≤ m.length → m.read16 2 = some c.lenExpected) := by
  simp only [prefixOk, Bool.and_eq_true, Bool.or_eq_true, decide_eq_true_eq, beq_iff_eq, or_iff_not_imp_left, Nat.not_lt,
    and_assoc]

theorem prefixOk_clear (c : Config) : prefixOk c Memory.clear = true := rfl

/-- An accepted byte keeps the invariants of R17. -/
theorem prefixOk_push {c : Config} {m : Memory} {b : Byte} (hm : prefixOk c m = true) (hb : m.Accepts c b) :
    prefixOk c (m.push b) = true := by
  obtain ⟨hsync1, hsync2, hlen⟩ := (prefixOk_iff c m).mp hm
  obtain ⟨hb0, hb1, hb3⟩ := hb
  rw [prefixOk_iff, Memory.length_push, Memory.read_push, Memory.read_push]
  refine ⟨fun _ => ?_, fun h2 => ?_, fun h4 => ?_⟩
  · split
    · next h => rw [hb0 h.symm]
    · next h => exact hsync1 (by omega)
  · split
    · next h => rw [hb1 h.symm]
    · next h => exact hsync2 (by omega)
  · rcases Nat.lt_or_ge m.length 4 with hlt | hge
    · have h3 : m.length = 3 := by omega
      obtain ⟨hi, hread, hword⟩ := (Memory.lengthMatches_iff c m b).mp (hb3 h3)
      refine (Memory.read16_eq_some _ _ _).mpr ⟨hi, b, ?_, ?_, hword⟩
      · rw [Memory.read_push, if_neg (by omega), hread]
      · rw [Memory.read_push, if_pos (by omega)]
    · rw [Memory.read16_push_of_lt m b 2 (by omega), hlen hge]

/-- The Reading of a full accumulator has `NFIELDS` fields (R19, R59). -/
theorem decodeReading_length (c : Config) (m : Memory) (h : m.length = c.cap) :
    (Memory.decodeReading c m).length = c.nfields := by
  refine beWords_length c.nfields _ ?_
  rcases variant_cases c with ⟨-, hcap, hfields, -⟩ | ⟨-, hcap, hfields, -⟩ <;>
    simp [h, hcap, hfields]

/-- The pair fits the store's registers: `NFIELDS` fields (R19) and a `TS_W`-bit timestamp (R21). -/
def Store.Fits (c : Config) (p : Store) : Prop := p.reading.length = c.nfields ∧ p.ts < 2 ^ c.tsW

/-- The zeroed pair fits, since R7 asks for a sentinel that does. -/
theorem Store.fits_zeroed {c : Config} (h : c.wf = true) : (Store.zeroed c).Fits c := by
  simp only [Config.wf, Bool.and_eq_true, decide_eq_true_eq] at h
  obtain ⟨⟨-, hsentinel⟩, -⟩ := h
  exact ⟨List.length_replicate, hsentinel⟩

/-- The invariant of a state, apart: the parameters, the accumulator and the store. -/
theorem State.inv_iff (s : State) :
    s.inv = true ↔ s.cfg.wf = true ∧ (s.acc.length < s.cfg.cap ∧ prefixOk s.cfg s.acc = true) ∧ s.store.Fits s.cfg := by
  simp only [State.inv, State.wf, Memory.wf, Store.Fits, Bool.and_eq_true, decide_eq_true_eq, and_assoc]
  tauto

end Sys2Proof.Machine
end

section
/-! What a row of R69 can do, said once for all rows, and what no row changes. -/

namespace Sys2Proof.Machine

/-- The effects that rows have, each with what the selection of its rows gives (R74–R88, R99, R101, R108, R135). The row
is named where its effect writes the store. -/
inductive RowEffect (s : State) : Instr → State → Prop
  /-- `RST`. -/
  | reset : RowEffect s .rst s.resetBlock
  /-- `IDLE`, and a byte discarded at offset 0. -/
  | quiet (i : Instr) : RowEffect s i (s.raise .none)
  /-- A byte stored at the offset, which does not fill the frame. -/
  | stored (i : Instr) (b : Byte) (room : s.acc.length + 1 < s.cfg.cap) (accepted : s.acc.Accepts s.cfg b) :
      RowEffect s i ((s.push b).raise .none)
  /-- A candidate frame dropped. -/
  | recovered (i : Instr) (e : Event) : RowEffect s i (s.recover e)
  /-- A valid frame. -/
  | frameDone (b : Byte) (now : Nat) (last : s.acc.length = s.cfg.cap - 1) :
      RowEffect s (.rxLastOk b now)
        (((s.storeWrite (Memory.decodeReading s.cfg (s.acc.push b)) now).clear).raise .frameOk)
  /-- `UPDATE`. -/
  | updated (r : Reading) (ts : Nat) : RowEffect s (.update r ts) (s.storeWrite r ts)
  /-- A snapshot or a command handed back. -/
  | answered (i : Instr) (r : Reply) : RowEffect s i (s.answer r)

/-- The offset after a byte stored in the header leaves room: `CAP` is more than 4. -/
theorem four_lt_cap (c : Config) : 4 < c.cap := by
  rcases variant_cases c with ⟨-, hcap, -⟩ | ⟨-, hcap, -⟩ <;> omega

/-- A row over `onRow` has its effect where it is selected. -/
theorem rowEffect_of_onRow {i : Instr} {s t u : State} (h : onRow i s u = .next t)
    (heff : i.selected s.cfg s.acc = true → RowEffect s i u) : RowEffect s i t := by
  obtain ⟨hsel, rfl⟩ := (onRow_eq_next i s u t).mp h
  exact heff hsel

/-- Every row that answers a next state has one of the effects. -/
theorem rowEffect_of_exec {i : Instr} {s t : State} (h : exec i s = .next t) : RowEffect s i t := by
  have hcap := four_lt_cap s.cfg
  cases i with
  | rst => cases h; exact .reset
  | idle => cases h; exact .quiet _
  | rxSync1Hit =>
    refine rowEffect_of_onRow h fun hsel => .stored _ sync1 ?_ ⟨fun _ => rfl, ?_, ?_⟩ <;>
      simp only [Instr.selected, beq_iff_eq, phase_eq_seekStart1] at hsel <;> omega
  | rxSync1Miss b => exact rowEffect_of_onRow h fun _ => .quiet _
  | rxSync2Hit =>
    refine rowEffect_of_onRow h fun hsel => .stored _ sync2 ?_ ⟨?_, fun _ => rfl, ?_⟩ <;>
      simp only [Instr.selected, beq_iff_eq, phase_eq_seekStart2] at hsel <;> omega
  | rxSync2Miss b => exact rowEffect_of_onRow h fun _ => .recovered _ _
  | rxLenHi b =>
    refine rowEffect_of_onRow h fun hsel => .stored _ b ?_ ⟨?_, ?_, ?_⟩ <;>
      simp only [Instr.selected, beq_iff_eq] at hsel <;> omega
  | rxLenLoOk b =>
    refine rowEffect_of_onRow h fun hsel => ?_
    simp only [Instr.selected, Bool.and_eq_true, beq_iff_eq] at hsel
    obtain ⟨hoff, hlen⟩ := hsel
    exact .stored _ b (by omega) ⟨by omega, by omega, fun _ => hlen⟩
  | rxLenLoBad b => exact rowEffect_of_onRow h fun _ => .recovered _ _
  | rxBody b =>
    refine rowEffect_of_onRow h fun hsel => .stored _ b ?_ ⟨?_, ?_, ?_⟩ <;>
      simp only [Instr.selected, Bool.and_eq_true, beq_iff_eq, phase_eq_readBody, decide_eq_true_eq] at hsel <;> omega
  | rxLastOk b now =>
    refine rowEffect_of_onRow h fun hsel => .frameDone b now ?_
    simp only [Instr.selected, Bool.and_eq_true, beq_iff_eq] at hsel
    exact hsel.1
  | rxLastBad b => exact rowEffect_of_onRow h fun _ => .recovered _ _
  | update r ts => cases h; exact .updated r ts
  | snap r =>
    rw [exec_snap] at h
    obtain ⟨-, rfl⟩ := (execSnap_eq_next r s t).mp h
    exact .answered _ _
  | enc op dl dh => cases h; exact .answered _ _
  | wake => cases h; exact .answered _ _
  | setmode active => cases h; exact .answered _ _

/-- No effect reaches a parameter (R25). -/
theorem RowEffect.cfg_eq {s t : State} {i : Instr} (h : RowEffect s i t) : t.cfg = s.cfg := by
  cases h <;> rfl

/-- No effect reaches the queue of what is presented. -/
theorem RowEffect.pending_eq {s t : State} {i : Instr} (h : RowEffect s i t) : t.pending = s.pending := by
  cases h <;> rfl

/-- Settles O31: no effect of a row reaches the parameters or the queue. -/
theorem noRowChangesTheParameters : Obligations.NoRowChangesTheParameters := by
  intro i s t h
  have heff := rowEffect_of_exec h
  exact ⟨heff.cfg_eq, heff.pending_eq⟩

/-- A well-formed row keeps the invariant, whatever effect it has. -/
theorem RowEffect.keeps_inv {s t : State} {i : Instr} (h : RowEffect s i t) (hi : i.wf s.cfg = true)
    (hs : s.inv = true) : t.inv = true := by
  obtain ⟨hcfg, ⟨hroom, hbytes⟩, hstore⟩ := s.inv_iff.mp hs
  have hcap := four_lt_cap s.cfg
  have hclear : Memory.clear.length < s.cfg.cap ∧ prefixOk s.cfg Memory.clear = true :=
    ⟨by rw [Memory.length_clear]; omega, prefixOk_clear s.cfg⟩
  rw [State.inv_iff, h.cfg_eq]
  refine ⟨hcfg, ?_⟩
  cases h with
  | reset => exact ⟨hclear, Store.fits_zeroed hcfg⟩
  | quiet => exact ⟨⟨hroom, hbytes⟩, hstore⟩
  | stored i b room accepted =>
    refine ⟨⟨?_, prefixOk_push hbytes accepted⟩, hstore⟩
    rw [State.raise_acc, State.push_acc, Memory.length_push]
    exact room
  | recovered => exact ⟨hclear, hstore⟩
  | frameDone b now last =>
    refine ⟨hclear, decodeReading_length s.cfg _ ?_, of_decide_eq_true hi⟩
    rw [Memory.length_push]
    omega
  | updated r ts =>
    simp only [Instr.wf, Bool.and_eq_true, decide_eq_true_eq] at hi
    exact ⟨⟨hroom, hbytes⟩, hi⟩
  | answered => exact ⟨⟨hroom, hbytes⟩, hstore⟩

end Sys2Proof.Machine
end

section
/-! Reset: the values of R28, and the invariant. -/

namespace Sys2Proof.Machine

/-- Settles O1: each value of `State.reset` is the stated one, the Reading being `NFIELDS` copies of 0. -/
theorem resetLeavesStatedValues : Obligations.ResetLeavesStatedValues :=
  ⟨rfl, rfl, rfl, List.length_replicate, fun _ hw => List.eq_of_mem_replicate hw, rfl, rfl, rfl, rfl⟩

/-- Settles O2: an empty accumulator and the zeroed pair, under parameters that meet R7. -/
theorem resetMeetsInvariant : Obligations.ResetMeetsInvariant :=
  have hcfg : State.reset.cfg.wf = true := by decide
  State.reset.inv_iff.mpr
    ⟨hcfg, ⟨of_decide_eq_true reset_memory_wf, prefixOk_clear _⟩, Store.fits_zeroed hcfg⟩

end Sys2Proof.Machine
end

section
/-! The rows a presented transaction selects, and what one step does with the row it selects. -/

namespace Sys2Proof.Machine

/-- An `ENC` word selects an encoder row. -/
theorem decodeEnc_cases (c : Config) (w : BitVec 24) :
    (∃ a, decodeEnc c w = .setmode a) ∨ (∃ op dl dh, decodeEnc c w = .enc op dl dh) ∨ decodeEnc c w = .wake := by
  unfold decodeEnc
  split_ifs <;> simp

/-- The row of each kind of transaction: reset first, then idle, then the RX rows; a snapshot and an encoder evaluation
select theirs at any offset (R69, R138). -/
theorem decode_selector_cases {c : Config} {m : Memory} {x : Transaction} {i : Instr}
    (h : decode c (x.selector m) = .ok i) :
    (∃ v b now, x = .sync true v b now ∧ i = .rst) ∨
    (∃ b now, x = .sync false false b now ∧ i = .idle) ∨
    (∃ b now, x = .sync false true b now ∧ decodeRx c m b now = .ok i) ∨
    (∃ r, x = .snap r ∧ i = .snap r) ∨
    ∃ op dl dh, x = .enc op dl dh ∧ ((∃ a, i = .setmode a) ∨ (∃ op' dl' dh', i = .enc op' dl' dh') ∨ i = .wake) := by
  cases x with
  | sync rst rxValid b now =>
    simp only [Transaction.selector, decode, decodeStep_stepWord] at h
    cases rst with
    | true => cases h; exact .inl ⟨_, _, _, rfl, rfl⟩
    | false =>
      cases rxValid with
      | false => cases h; exact .inr (.inl ⟨_, _, rfl, rfl⟩)
      | true =>
        refine .inr (.inr (.inl ⟨b, now, rfl, ?_⟩))
        simp only [Bool.false_eq_true, if_false, Bool.not_true] at h
        split_ifs at h
        exact h
  | snap r => cases h; exact .inr (.inr (.inr (.inl ⟨r, rfl, rfl⟩)))
  | enc op dl dh => cases h; exact .inr (.inr (.inr (.inr ⟨op, dl, dh, rfl, decodeEnc_cases c _⟩)))

/-- An RX row is well formed: its byte passed the test of its row, and the clock value it takes is the port's. -/
theorem decodeRx_wf {c : Config} {m : Memory} {b : Byte} {now : Nat} {i : Instr} (h : decodeRx c m b now = .ok i) :
    i.wf c = true := by
  have hport : c.portNow now < 2 ^ c.tsW := Nat.mod_lt _ (Nat.two_pow_pos c.tsW)
  have hlow (hlen : m.lengthMatches c b = true) : (b == c.lenExpected.setWidth 8) = true := by
    obtain ⟨hi, -, hword⟩ := (Memory.lengthMatches_iff c m b).mp hlen
    rw [← hword, be16_setWidth, beq_self_eq_true]
  unfold decodeRx at h
  split_ifs at h <;> cases h <;> simp [Instr.wf, *]

/-- The RX rows are the rows of the byte presented (R73). -/
theorem decodeRx_rxByte {c : Config} {m : Memory} {b : Byte} {now : Nat} {i : Instr}
    (h : decodeRx c m b now = .ok i) : i.rxByte = some b := by
  unfold decodeRx at h
  split_ifs at h <;> cases h <;> simp [Instr.rxByte, *]

/-- The clock value of a valid frame is the one on the port beside its last byte (R127). -/
theorem decodeRx_rxLastOk {c : Config} {m : Memory} {b b' : Byte} {now ts : Nat}
    (h : decodeRx c m b now = .ok (.rxLastOk b' ts)) : ts = c.portNow now := by
  unfold decodeRx at h
  split_ifs at h <;> cases h
  rfl

/-- A selected row is well formed, but for the snapshot of a reader that does not exist (R101). -/
theorem decode_selector_wf {c : Config} {m : Memory} {x : Transaction} {i : Instr}
    (h : decode c (x.selector m) = .ok i) : i.wf c = true ∨ ∃ r, i = .snap r := by
  rcases decode_selector_cases h with ⟨-, -, -, -, rfl⟩ | ⟨-, -, -, rfl⟩ | ⟨b, now, -, hrx⟩ | ⟨r, -, rfl⟩ |
    ⟨-, -, -, -, ⟨a, rfl⟩ | ⟨op, dl, dh, rfl⟩ | rfl⟩
  · exact .inl rfl
  · exact .inl rfl
  · exact .inl (decodeRx_wf hrx)
  · exact .inr ⟨r, rfl⟩
  all_goals exact .inl rfl

/-- Only the port `rst` selects `RST` (R135, R138). -/
theorem decode_selector_rst {c : Config} {m : Memory} {x : Transaction} (h : decode c (x.selector m) = .ok .rst) :
    ∃ v b now, x = .sync true v b now := by
  rcases decode_selector_cases h with ⟨v, b, now, hx, -⟩ | ⟨-, -, -, ⟨⟩⟩ | ⟨b, now, -, hrx⟩ | ⟨-, -, ⟨⟩⟩ |
    ⟨-, -, -, -, ⟨-, ⟨⟩⟩ | ⟨-, -, -, ⟨⟩⟩ | ⟨⟨⟩⟩⟩
  · exact ⟨v, b, now, hx⟩
  · cases decodeRx_rxByte hrx

/-- Only a presented byte selects `RX.LAST_OK`, with that byte and the clock value on the port beside it. -/
theorem decode_selector_rxLastOk {c : Config} {m : Memory} {x : Transaction} {b : Byte} {ts : Nat}
    (h : decode c (x.selector m) = .ok (.rxLastOk b ts)) : ∃ now, x = .sync false true b now ∧ ts = c.portNow now := by
  rcases decode_selector_cases h with ⟨-, -, -, -, ⟨⟩⟩ | ⟨-, -, -, ⟨⟩⟩ | ⟨b', now, hx, hrx⟩ | ⟨-, -, ⟨⟩⟩ |
    ⟨-, -, -, -, ⟨-, ⟨⟩⟩ | ⟨-, -, -, ⟨⟩⟩ | ⟨⟨⟩⟩⟩
  cases decodeRx_rxByte hrx
  exact ⟨now, hx, decodeRx_rxLastOk hrx⟩

/-- No port selects `UPDATE` (R99). -/
theorem decode_selector_ne_update (c : Config) (m : Memory) (x : Transaction) (r : Reading) (ts : Nat) :
    decode c (x.selector m) ≠ .ok (.update r ts) := by
  intro h
  rcases decode_selector_cases h with ⟨-, -, -, -, ⟨⟩⟩ | ⟨-, -, -, ⟨⟩⟩ | ⟨b, now, -, hrx⟩ | ⟨-, -, ⟨⟩⟩ |
    ⟨-, -, -, -, ⟨-, ⟨⟩⟩ | ⟨-, -, -, ⟨⟩⟩ | ⟨⟨⟩⟩⟩
  cases decodeRx_rxByte hrx

/-- A step that answers a next state ran the row that its transaction selects. -/
theorem step_eq_next {s t : State} (h : step s = .next t) :
    ∃ i, decode s.cfg (s.fetch.1.selector s.acc) = .ok i ∧ exec i s.fetch.2 = .next t := by
  rcases step_cases s with ⟨i, hdec, hstep⟩ | ⟨why, -, hstep⟩
  · refine ⟨i, ?_, hstep ▸ h⟩
    simpa only [State.decodeTransaction, State.fetch_cfg, State.fetch_acc] using hdec
  · rw [hstep] at h
    cases h

/-- A step that answers a next state had the effect of the row it selects, and that row is well formed. -/
theorem step_rowEffect {s t : State} (h : step s = .next t) :
    ∃ i, decode s.cfg (s.fetch.1.selector s.acc) = .ok i ∧ i.wf s.cfg = true ∧ RowEffect s.fetch.2 i t := by
  obtain ⟨i, hdec, hexec⟩ := step_eq_next h
  refine ⟨i, hdec, ?_, rowEffect_of_exec hexec⟩
  rcases decode_selector_wf hdec with hwf | ⟨r, rfl⟩
  · exact hwf
  · rw [exec_snap] at hexec
    obtain ⟨hport, -⟩ := (execSnap_eq_next r _ t).mp hexec
    rw [State.fetch_cfg] at hport
    exact decide_eq_true hport

/-- No step changes a parameter (R25). -/
theorem step_cfg {s t : State} (h : step s = .next t) : t.cfg = s.cfg := by
  obtain ⟨i, -, -, heff⟩ := step_rowEffect h
  rw [heff.cfg_eq, State.fetch_cfg]

/-- A step takes the transaction at the head of the queue, and no other (R42). -/
theorem step_pending {s t : State} (h : step s = .next t) : t.pending = s.pending.tail := by
  obtain ⟨i, -, -, heff⟩ := step_rowEffect h
  rw [heff.pending_eq, State.fetch_pending]

/-- Taking a transaction from the queue keeps the invariant, which does not look at the queue. -/
theorem fetch_inv (s : State) : s.fetch.2.inv = s.inv := by
  simp only [State.inv, State.wf, State.fetch_cfg, State.fetch_acc, State.fetch_store]

/-- Settles O40: the row that a step selects is well formed, and every effect of a well-formed row keeps the
invariant. -/
theorem stepKeepsInvariant : Obligations.StepKeepsInvariant := by
  intro s t hs h
  obtain ⟨i, -, hwf, heff⟩ := step_rowEffect h
  exact heff.keeps_inv (by rwa [State.fetch_cfg]) (by rwa [fetch_inv])

/-- What every step keeps, every run keeps. -/
theorem run_keeps {P : State → Prop} (hstep : ∀ s t, P s → step s = .next t → P t) (n : Nat) {s t : State} (hs : P s)
    (h : run n s = .next t) : P t := by
  induction n generalizing s with
  | zero => cases h; exact hs
  | succ n ih =>
    obtain ⟨u, hsu, hut⟩ := (run_succ_eq_next n s t).mp h
    exact ih (hstep s u hs hsu) hut

end Sys2Proof.Machine
end

section
/-! The timestamp under a monotonic clock (R23): the host's duty holds of what is still presented after each step. -/

namespace Sys2Proof.Machine

/-- A transaction that is not the IDLE of an empty queue was at the head of the queue. -/
theorem pending_of_fetch {s : State} {x : Transaction} (h : s.fetch.1 = x) (hx : x ≠ nothingPresented) :
    s.pending = x :: s.pending.tail := by
  cases hp : s.pending with
  | nil =>
    rw [State.fetch_nil s hp] at h
    exact absurd h.symm hx
  | cons y rest =>
    rw [State.fetch_cons s y rest hp] at h
    rw [← h, List.tail_cons]

/-- A step leaves the store as it was, or it is a reset, or the last byte of a valid frame, which stores the frame's
Reading with the clock value on the port (R97). -/
theorem step_store_cases {s t : State} (h : step s = .next t) :
    t.store = s.store ∨
    (∃ v b now, s.pending = .sync true v b now :: s.pending.tail ∧ t.store = Store.zeroed s.cfg) ∨
    ∃ b now, s.pending = .sync false true b now :: s.pending.tail ∧ s.acc.length = s.cfg.cap - 1 ∧ t.ev = .frameOk ∧
      t.store = { reading := Memory.decodeReading s.cfg (s.acc.push b), ts := s.cfg.portNow now } := by
  obtain ⟨i, hdec, -, heff⟩ := step_rowEffect h
  cases heff with
  | quiet | stored | recovered | answered => exact .inl s.fetch_store
  | reset =>
    obtain ⟨v, b, now, hx⟩ := decode_selector_rst hdec
    refine .inr (.inl ⟨v, b, now, pending_of_fetch hx (by simp [nothingPresented]), ?_⟩)
    rw [State.resetBlock_store, State.fetch_cfg]
  | frameDone b ts last =>
    obtain ⟨now, hx, rfl⟩ := decode_selector_rxLastOk hdec
    refine .inr (.inr ⟨b, now, pending_of_fetch hx (by simp [nothingPresented]), ?_, rfl, ?_⟩)
    · rwa [State.fetch_acc, State.fetch_cfg] at last
    · rw [State.raise_store, State.clear_store, State.storeWrite_store, State.fetch_cfg, State.fetch_acc]
  | updated r ts => exact absurd hdec (decode_selector_ne_update _ _ _ r ts)

/-- A clock value that fits the port is carried unchanged. -/
theorem portNow_of_lt {c : Config} {now : Nat} (h : now < 2 ^ c.tsW) : c.portNow now = now := Nat.mod_eq_of_lt h

/-- The clock values still presented after a step are among those before it, in their order. -/
theorem clockValues_tail_sublist (ts : List Transaction) : (clockValues ts.tail).Sublist (clockValues ts) := by
  cases ts with
  | nil => exact .slnil
  | cons x rest =>
    cases x with
    | sync rst rxValid b now => exact List.sublist_cons_self now _
    | snap | enc => exact List.Sublist.refl _

/-- What R23 asks of the host, of the transactions still presented: their clock values do not decrease (R72), are not
behind the store and fit the port, and none is a reset. -/
structure ClockDuty (s : State) : Prop where
  monotone : (clockValues s.pending).Pairwise (· ≤ ·)
  ahead : ∀ now ∈ clockValues s.pending, s.store.ts ≤ now ∧ now < 2 ^ s.cfg.tsW
  noReset : ∀ v b now, Transaction.sync true v b now ∉ s.pending

/-- Under the host's duty a step leaves the store's timestamp or moves it on to the first clock value presented, so it
is not behind the old one nor ahead of those still presented. -/
theorem ClockDuty.step_ts {s t : State} (hs : ClockDuty s) (h : step s = .next t) :
    s.store.ts ≤ t.store.ts ∧ ∀ now ∈ clockValues s.pending.tail, t.store.ts ≤ now := by
  rcases step_store_cases h with hsame | ⟨v, b, now, hp, -⟩ | ⟨b, now, hp, -, -, hwrite⟩
  · rw [hsame]
    exact ⟨le_rfl, fun now hnow => (hs.ahead now ((clockValues_tail_sublist _).subset hnow)).1⟩
  · exact absurd (hp ▸ List.mem_cons_self) (hs.noReset v b now)
  · have hvalues : clockValues s.pending = now :: clockValues s.pending.tail := by rw [hp]; rfl
    obtain ⟨hbehind, hfits⟩ := hs.ahead now (hvalues ▸ List.mem_cons_self)
    have hmono := hs.monotone
    rw [hvalues, List.pairwise_cons] at hmono
    rw [hwrite, portNow_of_lt hfits]
    exact ⟨hbehind, hmono.1⟩

/-- A step leaves the host's duty met. -/
theorem ClockDuty.keeps {s t : State} (hs : ClockDuty s) (h : step s = .next t) : ClockDuty t := by
  have hpending := step_pending h
  have hsub := clockValues_tail_sublist s.pending
  constructor
  · rw [hpending]
    exact hs.monotone.sublist hsub
  · rw [hpending, step_cfg h]
    exact fun now hnow => ⟨(hs.step_ts h).2 now hnow, (hs.ahead now (hsub.subset hnow)).2⟩
  · rw [hpending]
    exact fun v b now hmem => hs.noReset v b now (List.mem_of_mem_tail hmem)

/-- Settles O56: every step of the run keeps the host's duty, and with it the timestamp at or above the first one. -/
theorem timestampNeverDecreases : Obligations.TimestampNeverDecreases := by
  intro s t n hmono hahead hnoReset hrun
  have hkeeps : ∀ u v, ClockDuty u ∧ s.store.ts ≤ u.store.ts → step u = .next v →
      ClockDuty v ∧ s.store.ts ≤ v.store.ts := fun u v hu huv =>
    ⟨hu.1.keeps huv, hu.2.trans (hu.1.step_ts huv).1⟩
  exact (run_keeps hkeeps n ⟨⟨hmono, hahead, hnoReset⟩, le_rfl⟩ hrun).2

end Sys2Proof.Machine
end

section
/-! The obligations of 20_memory.md: what a storing row leaves in the accumulator, and what snapshots return. -/

namespace Sys2Proof.Machine

/-- The rows that store a byte push the byte of their step and report no event (R74, R76, R78, R79, R81). -/
theorem exec_storing_row {i : Instr} {b : Byte} (s : State)
    (hrow : i = .rxSync1Hit ∨ i = .rxSync2Hit ∨ i = .rxLenHi b ∨ i = .rxLenLoOk b ∨ i = .rxBody b)
    (hbyte : i.rxByte = some b) : exec i s = onRow i s ((s.push b).raise .none) := by
  rcases hrow with rfl | rfl | rfl | rfl | rfl <;> cases hbyte <;> rfl

/-- Settles O28: a storing row pushes its byte, and a push writes the address of the offset only. -/
theorem storingRowsFrame : Obligations.StoringRowsFrame := by
  intro s t i b hrow hbyte h
  rw [exec_storing_row s hrow hbyte] at h
  obtain ⟨-, rfl⟩ := (onRow_eq_next _ _ _ _).mp h
  exact ⟨Memory.read_push_elsewhere s.acc b, Memory.read_push_at_off s.acc b, Memory.length_push s.acc b,
    rfl, rfl, rfl, rfl, rfl⟩

/-- `RX.LAST_OK` leaves the pair of its frame in the store (R87). -/
theorem exec_rxLastOk_eq_next (b : Byte) (now : Nat) (s t : State) :
    exec (.rxLastOk b now) s = .next t ↔ (Instr.rxLastOk b now).selected s.cfg s.acc = true ∧
      t = ((s.storeWrite (Memory.decodeReading s.cfg (s.acc.push b)) now).clear).raise .frameOk :=
  onRow_eq_next _ _ _ _

/-- Settles O20: the store holds the frame's pair after `RX.LAST_OK`, and a snapshot answers what the store holds. -/
theorem snapshotAfterFrameOkReturnsTheFrame : Obligations.SnapshotAfterFrameOkReturnsTheFrame := by
  intro s t b now r h hport
  obtain ⟨-, rfl⟩ := (exec_rxLastOk_eq_next b now s t).mp h
  refine ⟨rfl, ?_⟩
  rw [exec_snap]
  exact (execSnap_eq_next r _ _).mpr ⟨hport, rfl⟩

/-- Settles O41: a step leaves the tail of the queue. -/
theorem presentedTransactionIsConsumedOnce : Obligations.PresentedTransactionIsConsumedOnce := by
  intro s t x rest hp h
  rw [step_pending h, hp, List.tail_cons]

/-- A row adds to the replies, and a snapshot it adds is the whole pair of the store it ran on (R101). -/
theorem exec_replies {i : Instr} {s t : State} (h : exec i s = .next t) :
    ∃ added, t.replies = s.replies ++ added ∧ ∀ r p, Reply.snapshot r p ∈ added → p = s.store := by
  cases i with
  | rst | idle | update => cases h; exact ⟨[], by simp⟩
  | rxSync1Hit | rxSync1Miss | rxSync2Hit | rxSync2Miss | rxLenHi | rxLenLoOk | rxLenLoBad | rxBody | rxLastOk
  | rxLastBad =>
    obtain ⟨-, rfl⟩ := (onRow_eq_next _ _ _ _).mp h
    exact ⟨[], by simp⟩
  | snap r =>
    rw [exec_snap] at h
    obtain ⟨-, rfl⟩ := (execSnap_eq_next r s t).mp h
    exact ⟨[.snapshot r s.store], rfl, by simp⟩
  | enc | wake | setmode => cases h; exact ⟨_, rfl, by simp⟩

/-- A step adds to the replies, and a snapshot it adds is the whole pair of the state before it (R100). -/
theorem step_replies {s t : State} (h : step s = .next t) :
    ∃ added, t.replies = s.replies ++ added ∧ ∀ r p, Reply.snapshot r p ∈ added → p = s.store := by
  obtain ⟨i, -, hexec⟩ := step_eq_next h
  simpa only [State.fetch_replies, State.fetch_store] using exec_replies hexec

/-- A run adds to the replies, and a snapshot it adds is the whole pair of a state before the run's end. -/
theorem run_replies (n : Nat) {s t : State} (h : run n s = .next t) :
    ∃ added, t.replies = s.replies ++ added ∧
      ∀ r p, Reply.snapshot r p ∈ added → ∃ k u, k < n ∧ run k s = .next u ∧ p = u.store := by
  induction n generalizing s with
  | zero => cases h; exact ⟨[], by simp⟩
  | succ n ih =>
    obtain ⟨v, hsv, hvt⟩ := (run_succ_eq_next n s t).mp h
    obtain ⟨first, hfirst, hsnapFirst⟩ := step_replies hsv
    obtain ⟨later, hlater, hsnapLater⟩ := ih hvt
    refine ⟨first ++ later, by rw [hlater, hfirst, List.append_assoc], fun r p hmem => ?_⟩
    rcases List.mem_append.mp hmem with hmem | hmem
    · exact ⟨0, s, n.succ_pos, run_zero s, hsnapFirst r p hmem⟩
    · obtain ⟨k, u, hk, hku, hp⟩ := hsnapLater r p hmem
      exact ⟨k + 1, u, Nat.succ_lt_succ hk, by rw [run_succ k s v hsv, hku], hp⟩

/-- Settles O54: the replies a run added are those behind the ones there were at its start. -/
theorem snapshotsAreUntorn : Obligations.SnapshotsAreUntorn := by
  intro s t n h r p hmem
  obtain ⟨added, hreplies, hsnap⟩ := run_replies n h
  rw [hreplies, List.drop_left] at hmem
  exact hsnap r p hmem

end Sys2Proof.Machine
end

section
/-! The decoder against the encoder: which rows the decoder gives for the words of R69, and that it gives back, in its
canonical spelling, the row a word was written for. -/

namespace Sys2Proof.Machine

/-- The RX rows have one spelling: only words of `ENC` have names (R110, R111). -/
theorem canonical_of_rxByte {i : Instr} {b : Byte} (c : Config) (hb : i.rxByte = some b) : i.canonical c = i := by
  cases i with
  | rxSync1Hit | rxSync1Miss | rxSync2Hit | rxSync2Miss | rxLenHi | rxLenLoOk | rxLenLoBad | rxBody | rxLastOk
  | rxLastBad => rfl
  | rst | idle | update | snap | enc | wake | setmode => cases hb

/-- The RX row that the decoder gives for a byte is selected (R73). -/
theorem decodeRx_selected {c : Config} {m : Memory} {b : Byte} {now : Nat} {i : Instr}
    (h : decodeRx c m b now = .ok i) : i.selected c m = true := by
  have hcap := four_lt_cap c
  unfold decodeRx at h
  split_ifs at h <;> cases h
  all_goals simp [Instr.selected, phase_eq_seekStart1, phase_eq_seekStart2, phase_eq_readBody, *]
  -- `RX.BODY` is left: its offset is from 4 on and below `CAP`.
  omega

/-- From the fifth byte on and before the last one a byte is body, whatever it is (R81). -/
theorem decodeRx_body {c : Config} {m : Memory} (b : Byte) (now : Nat) (hbody : 4 ≤ m.length)
    (hroom : m.length ≤ c.cap - 2) : decodeRx c m b now = .ok (.rxBody b) := by
  unfold decodeRx
  rw [if_neg (by omega), if_neg (by omega), if_neg (by omega), if_neg (by omega), if_pos hroom]

/-- At the last offset the checksum of the full accumulator decides (R86). -/
theorem decodeRx_last {c : Config} {m : Memory} (b : Byte) (now : Nat) (hlast : m.length = c.cap - 1) :
    decodeRx c m b now =
      if (m.push b).checksumMatches c then .ok (.rxLastOk b (c.portNow now)) else .ok (.rxLastBad b) := by
  have hcap := four_lt_cap c
  unfold decodeRx
  rw [if_neg (by omega), if_neg (by omega), if_neg (by omega), if_neg (by omega), if_neg (by omega), if_pos hlast]

/-- The RX row that is selected for a byte is the one the decoder gives: R73's rows exclude each other. The clock value
is that of the port for a valid frame, and free for every other row. -/
theorem decodeRx_of_selected {c : Config} {m : Memory} {b : Byte} {now : Nat} {i : Instr} (hb : i.rxByte = some b)
    (hsel : i.selected c m = true) (hnow : ∀ b' ts, i = .rxLastOk b' ts → ts = c.portNow now) :
    decodeRx c m b now = .ok i := by
  cases i with
  | rst | idle | update | snap | enc | wake | setmode => cases hb
  | rxSync1Hit | rxSync1Miss | rxSync2Hit | rxSync2Miss | rxLenHi | rxLenLoOk | rxLenLoBad =>
    cases hb
    simp_all [Instr.selected, decodeRx, phase_eq_seekStart1, phase_eq_seekStart2]
  | rxBody =>
    cases hb
    simp only [Instr.selected, Bool.and_eq_true, beq_iff_eq, phase_eq_readBody, decide_eq_true_eq] at hsel
    obtain ⟨⟨hbody, -⟩, hroom⟩ := hsel
    exact decodeRx_body b now hbody hroom
  | rxLastOk _ ts =>
    cases hb
    simp only [Instr.selected, Bool.and_eq_true, beq_iff_eq] at hsel
    obtain ⟨hlast, hsum⟩ := hsel
    rw [decodeRx_last b now hlast, if_pos hsum, hnow b ts rfl]
  | rxLastBad =>
    cases hb
    simp only [Instr.selected, Bool.and_eq_true, beq_iff_eq, Bool.not_eq_true'] at hsel
    obtain ⟨hlast, hsum⟩ := hsel
    rw [decodeRx_last b now hlast, if_neg (by simp [hsum])]

/-- The encoder's selector of a selected RX row: the row's byte and the accumulator's own offset are in the word, and a
valid frame's clock value stands beside it. -/
theorem encode_of_rxByte {c : Config} {m : Memory} {b : Byte} {i : Instr} (hb : i.rxByte = some b)
    (hsel : i.selected c m = true) :
    ∃ now, encode c m i = some (.step (stepWord false true (BitVec.ofNat 5 m.length) b) m now) ∧
      ∀ b' ts, i = .rxLastOk b' ts → ts = now := by
  cases i with
  | rst | idle | update | snap | enc | wake | setmode => cases hb
  | rxSync1Hit | rxSync1Miss | rxSync2Hit | rxSync2Miss | rxLenHi | rxLenLoOk | rxLenLoBad | rxBody | rxLastOk
  | rxLastBad =>
    cases hb
    simp_all [Instr.selected, encode, phase_eq_seekStart1, phase_eq_seekStart2]

/-- An `ENC` word decodes to the canonical spelling of the `ENC` with its three bytes. -/
theorem decodeEnc_eq_canonical (c : Config) (w : BitVec 24) :
    decodeEnc c w = (Instr.enc (encOp w) (encDl w) (encDh w)).canonical c := rfl

/-- The names of an `ENC` word are those of its three bytes. -/
theorem decodeEnc_encWord (c : Config) (op dl dh : Byte) :
    decodeEnc c (encWord op dl dh) = (Instr.enc op dl dh).canonical c := by
  rw [decodeEnc_eq_canonical, encOp_encWord, encDl_encWord, encDh_encWord]

/-- `WAKE` is the name of its `ENC` (R110). -/
theorem canonical_enc_wake (c : Config) : (Instr.enc opSleep 1 0).canonical c = .wake := by
  simp [Instr.canonical]

/-- `SETMODE` and the `ENC` it is short for have one canonical spelling (R111), `OP_MODE` equal to the sleep opcode
included. -/
theorem canonical_enc_setmode (c : Config) (a : Bool) :
    (Instr.enc c.opMode (if a then 1 else 0) 0).canonical c = (Instr.setmode a).canonical c := by
  cases a <;> simp [Instr.canonical]

/-- A canonical spelling is the row's own or a name: `WAKE`, or `SETMODE`, but not the `SETMODE 1` whose word `WAKE`
names. -/
theorem canonical_cases (c : Config) (i : Instr) :
    i.canonical c = i ∨ i.canonical c = .wake ∨ i.canonical c = .setmode false ∨
      (i.canonical c = .setmode true ∧ c.opMode ≠ opSleep) := by
  cases i with
  | enc op dl dh =>
    simp only [Instr.canonical]
    split_ifs with hwake hpassive hactive
    · exact .inr (.inl rfl)
    · exact .inr (.inr (.inl rfl))
    · exact .inr (.inr (.inr ⟨rfl, fun hsleep => hwake ⟨hactive.1.trans hsleep, hactive.2⟩⟩))
    · exact .inl rfl
  | setmode a =>
    cases a with
    | false => exact .inl rfl
    | true =>
      simp only [Instr.canonical]
      split_ifs
      · exact .inr (.inl rfl)
      · exact .inl rfl
  | _ => exact .inl rfl

/-- A canonical spelling is its own. -/
theorem canonical_canonical (c : Config) (i : Instr) : (i.canonical c).canonical c = i.canonical c := by
  rcases canonical_cases c i with h | h | h | ⟨h, hsleep⟩
  · rw [h, h]
  · rw [h]; rfl
  · rw [h]; rfl
  · rw [h]; simp [Instr.canonical, hsleep]

/-- Settles O34: an RX row is selected by the word that holds its byte at the accumulator's offset, so the decoder, which
gives the one selected row of that byte, gives the row itself; an encoder row comes back in the canonical spelling of its
word. -/
theorem decodeOfEncodeIsTheRow : Obligations.DecodeOfEncodeIsTheRow := by
  intro c m i hrest hwf hsel hport
  cases hb : i.rxByte with
  | some b =>
    obtain ⟨now, henc, hts⟩ := encode_of_rxByte hb hsel
    have hnow : ∀ b' ts, i = .rxLastOk b' ts → ts = c.portNow now := by
      intro b' ts hi
      rw [← hts b' ts hi, portNow_of_lt]
      subst hi
      exact of_decide_eq_true hwf
    refine ⟨_, henc, ?_⟩
    rw [canonical_of_rxByte c hb, decode, decodeStep_stepWord, stepOff_of_wf c m hrest]
    simpa using decodeRx_of_selected hb hsel hnow
  | none =>
    cases i with
    | rst | idle => exact ⟨_, rfl, by simp [decode, decodeStep_stepWord, Instr.canonical]⟩
    | snap r => exact ⟨_, rfl, rfl⟩
    | enc op dl dh => exact ⟨_, rfl, congrArg _ (decodeEnc_encWord c op dl dh)⟩
    | wake => exact ⟨_, rfl, congrArg _ ((decodeEnc_encWord c _ _ _).trans (canonical_enc_wake c))⟩
    | setmode a => exact ⟨_, rfl, congrArg _ ((decodeEnc_encWord c _ _ _).trans (canonical_enc_setmode c a))⟩
    | update => cases hport
    | rxSync1Hit | rxSync1Miss | rxSync2Hit | rxSync2Miss | rxLenHi | rxLenLoOk | rxLenLoBad | rxBody | rxLastOk
    | rxLastBad => cases hb

/-- The row of a word `S`: reset, idle, or the RX row of the word's byte (R69, R138). -/
theorem decodeStep_cases {c : Config} {w : BitVec 16} {m : Memory} {now : Nat} {i : Instr}
    (h : decodeStep c w m now = .ok i) : i = .rst ∨ i = .idle ∨ decodeRx c m (stepByte w) now = .ok i := by
  unfold decodeStep at h
  split_ifs at h
  · cases h; exact .inl rfl
  · cases h; exact .inr (.inl rfl)
  · exact .inr (.inr h)

/-- Settles O33: reset and idle apply everywhere, an RX row is the selected one, and an encoder row has no operand
condition and is its word's canonical spelling. -/
theorem decoderGivesSelectedRows : Obligations.DecoderGivesSelectedRows := by
  refine fun c i => ⟨fun w m now h => ?_, fun w m h => ?_, fun r m h => ?_⟩
  · rcases decodeStep_cases h with rfl | rfl | hrx
    · exact ⟨rfl, rfl, rfl⟩
    · exact ⟨rfl, rfl, rfl⟩
    · exact ⟨decodeRx_wf hrx, decodeRx_selected hrx, canonical_of_rxByte c (decodeRx_rxByte hrx)⟩
  · cases h
    have hcanonical : (decodeEnc c w).canonical c = decodeEnc c w := by
      rw [decodeEnc_eq_canonical, canonical_canonical]
    rcases decodeEnc_cases c w with ⟨a, hrow⟩ | ⟨op, dl, dh, hrow⟩ | hrow
    all_goals exact ⟨by rw [hrow]; rfl, by rw [hrow]; rfl, hcanonical⟩
  · cases h
    exact ⟨rfl, decide_eq_true_iff, rfl, rfl⟩

end Sys2Proof.Machine
end

section
/-! Packed fields: the bytes of `cmd_frame` and the words of a read port, both as digits of one number (R52, R54), and
the words of a full accumulator (R59). -/

namespace Sys2Proof.Machine

/-- Bit `j` of digit `i` of a number made of `v`-bit digits, the first least significant. -/
theorem testBit_ofDigits {v j : Nat} (hj : j < v) (ws : List (BitVec v)) (i : Nat) (w : BitVec v)
    (hw : ws[i]? = some w) : (Nat.ofDigits (2 ^ v) (ws.map BitVec.toNat)).testBit (v * i + j) = w.getLsbD j := by
  induction ws generalizing i with
  | nil => simp at hw
  | cons a ws ih =>
    rw [List.map_cons, Nat.ofDigits_cons, Nat.add_comm, Nat.testBit_two_pow_mul_add _ a.isLt]
    cases i with
    | zero =>
      cases hw
      rw [Nat.mul_zero, Nat.zero_add, if_pos hj, BitVec.testBit_toNat]
    | succ i =>
      rw [Nat.mul_succ, if_neg (by omega), show v * i + v + j - v = v * i + j by omega]
      exact ih i hw

/-- Digit `i` of such a number stands at bits `v*i + v-1 : v*i` of a register that is wide enough for it. -/
theorem extractLsb'_ofDigits {v : Nat} (ws : List (BitVec v)) (n i : Nat) (w : BitVec v) (hn : v * ws.length ≤ n)
    (hw : ws[i]? = some w) :
    (BitVec.ofNat n (Nat.ofDigits (2 ^ v) (ws.map BitVec.toNat))).extractLsb' (v * i) v = w := by
  obtain ⟨hi, -⟩ := List.getElem?_eq_some_iff.mp hw
  have hroom : v * (i + 1) ≤ n := (Nat.mul_le_mul_left v hi).trans hn
  rw [Nat.mul_succ] at hroom
  apply BitVec.eq_of_getLsbD_eq
  intro j hj
  rw [BitVec.getLsbD_extractLsb', BitVec.getLsbD_ofNat, testBit_ofDigits hj ws i w hw]
  simp [hj, show v * i + j < n by omega]

/-- A Reading on a read port is the number whose digits are its fields, field 0 first. -/
theorem packReading_eq_ofDigits (ws : Reading) : packReading ws = Nat.ofDigits (2 ^ 16) (ws.map BitVec.toNat) := by
  induction ws with
  | nil => rfl
  | cons w ws ih => rw [packReading, ih, List.map_cons, Nat.ofDigits_cons]; rfl

/-- Bytes packed as one number are its digits, the last byte first. -/
theorem packBytes_eq_ofDigits (bs : List Byte) :
    packBytes bs = Nat.ofDigits (2 ^ 8) (bs.reverse.map BitVec.toNat) := by
  induction bs using List.reverseRecOn with
  | nil => rfl
  | append_singleton bs b ih =>
    rw [List.reverse_append, List.reverse_singleton, List.singleton_append, List.map_cons, Nat.ofDigits_cons, ← ih,
      packBytes, List.foldl_append]
    exact Nat.add_comm _ _

/-- Settles O26: byte `k` is digit `6 - k` of the seven bytes packed as one number. -/
theorem commandFrameLayout : Obligations.CommandFrameLayout := by
  intro op dl dh k hk
  have hlen : (commandBytes op dl dh).length = 7 := rfl
  have hbyte : (commandBytes op dl dh)[k]? = some (commandBytes op dl dh)[k] := List.getElem?_eq_getElem (by omega)
  have hdigit : (commandBytes op dl dh).reverse[6 - k]? = some (commandBytes op dl dh)[k] := by
    rw [List.getElem?_reverse (by omega), ← hbyte]
    congr 1
    omega
  rw [hbyte, cmdFrame, packBytes_eq_ofDigits, show 48 - 8 * k = 8 * (6 - k) by omega,
    extractLsb'_ofDigits _ 56 (6 - k) _ (by rw [List.length_reverse, hlen]) hdigit]

/-- Settles O45: field `i` is digit `i` of the Reading packed as one number, and a timestamp that fits the store fits the
port. -/
theorem readPortLayout : Obligations.ReadPortLayout := by
  intro s r i hwf
  simp only [State.wf, Bool.and_eq_true, decide_eq_true_eq] at hwf
  obtain ⟨⟨-, hfields⟩, hts⟩ := hwf
  refine ⟨fun hi => ?_, ?_⟩
  · have hfield : s.store.reading[i]? = some s.store.reading[i] := List.getElem?_eq_getElem (by omega)
    rw [State.rdReading, packReading_eq_ofDigits, extractLsb'_ofDigits _ _ i _ (by rw [hfields]) hfield, hfield]
  · rw [State.rdTs, BitVec.toNat_ofNat, Nat.mod_eq_of_lt hts]

/-- Settles O36: the word that the Reading holds at `i` is made of bytes `2i` and `2i + 1` of the body, which begins at
offset 4. -/
theorem fieldsDecodeAtTheirOffsets : Obligations.FieldsDecodeAtTheirOffsets := by
  intro c m i hfull hi
  have hcap : c.cap = 2 * c.nfields + 6 := by
    rcases variant_cases c with ⟨-, hcap, hfields, -⟩ | ⟨-, hcap, hfields, -⟩ <;> omega
  have hbody (j : Nat) (hj : j < 2 * c.nfields) : ((m.drop 4).take (2 * c.nfields))[j]? = m[4 + j]? := by
    rw [List.getElem?_take_of_lt hj, List.getElem?_drop]
  have hhigh : m.read (4 + 2 * i) = some m[4 + 2 * i] := List.getElem?_eq_getElem (by omega)
  have hlow : m.read (5 + 2 * i) = some m[5 + 2 * i] := List.getElem?_eq_getElem (by omega)
  refine ⟨_, _, hhigh, hlow, beWords_get _ i _ _ ?_ ?_⟩
  · rw [hbody _ (by omega), ← hhigh, Memory.read]
  · rw [hbody _ (by omega), ← hlow, Memory.read]
    congr 1
    omega

end Sys2Proof.Machine
end

section
/-! What the meaning of a row and a step answer at the edges: a row that is not selected, words of the opcode table
alone, the row the decoder gives, and a clock value wider than the port. -/

namespace Sys2Proof.Machine

/-- Settles O16: only an RX row can be unselected, and the meaning of each is `onRow`. -/
theorem unselectedRowIsRefused : Obligations.UnselectedRowIsRefused := by
  intro i s h
  cases i with
  | rxSync1Hit | rxSync1Miss | rxSync2Hit | rxSync2Miss | rxLenHi | rxLenLoOk | rxLenLoBad | rxBody | rxLastOk
  | rxLastBad => exact onRow_unselected _ _ _ h
  | rst | idle | update | snap | enc | wake | setmode => cases h

/-- Settles O32: the model's decoder evaluated on each word. -/
theorem tableWordsDecodeToTheirRows : Obligations.TableWordsDecodeToTheirRows := by
  unfold Obligations.TableWordsDecodeToTheirRows
  decide

/-- A step with a transaction presented runs the row it selects, on the state without it. -/
theorem step_of_decode_ok {s : State} {x : Transaction} {rest : List Transaction} {i : Instr}
    (hp : s.pending = x :: rest) (hdec : decode s.cfg (x.selector s.acc) = .ok i) :
    step s = exec i { s with pending := rest } := by
  simp only [step, State.fetch_cons s x rest hp, State.decodeTransaction, hdec]

/-- A step refuses a transaction that selects no row. -/
theorem step_of_decode_error {s : State} {x : Transaction} {rest : List Transaction} {why : DecodeReject}
    (hp : s.pending = x :: rest) (hdec : decode s.cfg (x.selector s.acc) = .error why) :
    step s = .refused (.undecodable why) := by
  simp only [step, State.fetch_cons s x rest hp, State.decodeTransaction, hdec]

/-- The ports at rest select `IDLE`, at any offset (R51). -/
theorem decode_nothingPresented (c : Config) (m : Memory) : decode c (nothingPresented.selector m) = .ok .idle := by
  simp [nothingPresented, Transaction.selector, decode, decodeStep_stepWord]

/-- With nothing presented the step is `IDLE` (R51). -/
theorem step_of_nothing_pending {s : State} (hp : s.pending = []) : step s = exec .idle s := by
  simp only [step, State.fetch_nil s hp, State.decodeTransaction, decode_nothingPresented]

/-- Settles O37: one lemma for each answer of the decoder, and one for the empty queue. -/
theorem stepRunsTheDecodedRow : Obligations.StepRunsTheDecodedRow :=
  fun _ => ⟨fun _ _ _ => step_of_decode_ok, step_of_nothing_pending, fun _ _ _ => step_of_decode_error⟩

/-- The port carries its own value unchanged. -/
theorem portNow_portNow (c : Config) (now : Nat) : c.portNow (c.portNow now) = c.portNow now := Nat.mod_mod now _

/-- The decoder takes the clock value from the port (R127). -/
theorem decode_sync_portNow (c : Config) (m : Memory) (rst rxValid : Bool) (b : Byte) (now : Nat) :
    decode c ((Transaction.sync rst rxValid b (c.portNow now)).selector m) =
      decode c ((Transaction.sync rst rxValid b now).selector m) := by
  simp only [Transaction.selector, decode, decodeStep_stepWord, decodeRx, portNow_portNow]

/-- Two transactions that select the same run the same. -/
theorem step_congr_decode {s : State} {x y : Transaction} (rest : List Transaction)
    (h : decode s.cfg (x.selector s.acc) = decode s.cfg (y.selector s.acc)) :
    step { s with pending := x :: rest } = step { s with pending := y :: rest } := by
  simp only [step, State.fetch, State.decodeTransaction, h]

/-- Settles O58: the wide value and its low bits select the same row. -/
theorem portCarriesTheLowClockBits : Obligations.PortCarriesTheLowClockBits :=
  fun s rst rxValid b now rest => step_congr_decode rest (decode_sync_portNow s.cfg s.acc rst rxValid b now).symm

end Sys2Proof.Machine
end

section
/-! The obligations of 40_synchronizer.md, its rows: where R69 selects a row, and exactly what the row then leaves. -/

namespace Sys2Proof.Machine

namespace Memory

/-- VALIDATE's sum is that of all bytes before the two checksum bytes (R58, R86). -/
theorem sum16_before_checksum (c : Config) (m : Memory) : m.sum16 0 (c.cap - 3) = byteSum (m.take (c.cap - 2)) := by
  have hcap := four_lt_cap c
  rw [sum16, List.drop_zero, show c.cap - 3 + 1 - 0 = c.cap - 2 by omega]

/-- VALIDATE's comparison, with the two checksum bytes it reads (R86). -/
theorem checksumMatches_iff {c : Config} {m : Memory} {h l : Byte} (hh : m.read (c.cap - 2) = some h)
    (hl : m.read (c.cap - 1) = some l) :
    m.checksumMatches c = true ↔ be16 h l = byteSum (m.take (c.cap - 2)) := by
  have hcap := four_lt_cap c
  have hword : m.read16 (c.cap - 2) = some (be16 h l) :=
    (read16_eq_some _ _ _).mpr ⟨h, l, hh, by rwa [show c.cap - 2 + 1 = c.cap - 1 by omega], rfl⟩
  rw [checksumMatches, hword, sum16_before_checksum, beq_iff_eq, Option.some_inj]

/-- The same where the last byte is being stored. -/
theorem checksumMatches_push_iff {c : Config} {m : Memory} {h : Byte} (b : Byte) (hlast : m.length = c.cap - 1)
    (hh : m[c.cap - 2]? = some h) :
    (m.push b).checksumMatches c = true ↔ be16 h b = byteSum (m.take (c.cap - 2)) := by
  have hcap := four_lt_cap c
  have hhigh : (m.push b).read (c.cap - 2) = some h := by rwa [read_push, if_neg (by omega)]
  have hlow : (m.push b).read (c.cap - 1) = some b := by rw [read_push, if_pos hlast.symm]
  rw [checksumMatches_iff hhigh hlow, push, List.take_append_of_le_length (by omega)]

/-- The length condition of R79, the high byte being there. -/
theorem lengthMatches_of_read {c : Config} {m : Memory} {h : Byte} (b : Byte) (hh : m[2]? = some h) :
    m.lengthMatches c b = (be16 h b == c.lenExpected) := by
  rw [lengthMatches, read, hh]

end Memory

/-- Where it is selected, a row that stores a byte leaves it behind the accumulated ones, with no event. -/
theorem exec_storing_row_selected {i : Instr} {b : Byte} {s : State}
    (hrow : i = .rxSync1Hit ∨ i = .rxSync2Hit ∨ i = .rxLenHi b ∨ i = .rxLenLoOk b ∨ i = .rxBody b)
    (hbyte : i.rxByte = some b) (hsel : i.selected s.cfg s.acc = true) :
    exec i s = .next { s with acc := s.acc ++ [b], ev := .none } := by
  rw [exec_storing_row s hrow hbyte, onRow_selected _ _ _ hsel]
  rfl

/-- Where it is selected, a row that drops the candidate leaves an empty accumulator and the event of its error
(R125). -/
theorem exec_recovering_row_selected {i : Instr} {b : Byte} {e : Event} {s : State}
    (hrow : i = .rxSync2Miss b ∧ e = .errSync2 ∨ i = .rxLenLoBad b ∧ e = .errLength ∨
      i = .rxLastBad b ∧ e = .errChecksum) (hsel : i.selected s.cfg s.acc = true) :
    exec i s = .next { s with acc := [], ev := e } := by
  rcases hrow with ⟨rfl, rfl⟩ | ⟨rfl, rfl⟩ | ⟨rfl, rfl⟩ <;> exact onRow_selected _ _ _ hsel

/-- Settles O5: IDLE has no condition. -/
theorem idleCompletes : Obligations.IdleCompletes := fun _ => rfl

/-- Settles O6: the byte is stored behind no others. -/
theorem sync1HitCompletes : Obligations.Sync1HitCompletes := by
  intro s hoff
  have hsel : Instr.rxSync1Hit.selected s.cfg s.acc = true := beq_iff_eq.mpr ((phase_eq_seekStart1 _ _).mpr hoff)
  refine ⟨?_, (phase_eq_seekStart2 _ _).mpr rfl⟩
  rw [exec_storing_row_selected (.inl rfl) rfl hsel, List.eq_nil_of_length_eq_zero hoff]
  rfl

/-- Settles O7: the row changes the event only. -/
theorem sync1MissCompletes : Obligations.Sync1MissCompletes := by
  intro s b hoff hb
  have hsel : (Instr.rxSync1Miss b).selected s.cfg s.acc = true := by
    simp only [Instr.selected, Bool.and_eq_true, beq_iff_eq, phase_eq_seekStart1, bne_iff_ne]
    exact ⟨hoff, hb⟩
  exact onRow_selected _ _ _ hsel

/-- Settles O8: the first byte is no condition of the row. -/
theorem sync2HitCompletes : Obligations.Sync2HitCompletes := by
  intro s a hacc
  have hsel : Instr.rxSync2Hit.selected s.cfg s.acc = true := by
    rw [hacc]
    exact beq_iff_eq.mpr ((phase_eq_seekStart2 _ _).mpr rfl)
  rw [exec_storing_row_selected (.inr (.inl rfl)) rfl hsel, hacc]
  rfl

/-- Settles O9: every byte that is not the second start byte selects the row, the first start byte among them. -/
theorem sync2MissCompletes : Obligations.Sync2MissCompletes := by
  intro s b hoff hb
  have hsel : (Instr.rxSync2Miss b).selected s.cfg s.acc = true := by
    simp only [Instr.selected, Bool.and_eq_true, beq_iff_eq, phase_eq_seekStart2, bne_iff_ne]
    exact ⟨hoff, hb⟩
  exact exec_recovering_row_selected (.inl ⟨rfl, rfl⟩) hsel

/-- Settles O10: the offset alone selects the row. -/
theorem lenHiCompletes : Obligations.LenHiCompletes := by
  intro s b hoff
  exact exec_storing_row_selected (.inr (.inr (.inl rfl))) rfl (beq_iff_eq.mpr hoff)

/-- Settles O11: the length is the expected one. -/
theorem lenLoOkCompletes : Obligations.LenLoOkCompletes := by
  intro s h b hoff hhigh hlen
  have hsel : (Instr.rxLenLoOk b).selected s.cfg s.acc = true := by
    rw [Instr.selected, Memory.lengthMatches_of_read b hhigh, Bool.and_eq_true, beq_iff_eq, beq_iff_eq]
    exact ⟨hoff, hlen⟩
  exact exec_storing_row_selected (.inr (.inr (.inr (.inl rfl)))) rfl hsel

/-- Settles O12: the length is another one. -/
theorem lenLoBadCompletes : Obligations.LenLoBadCompletes := by
  intro s h b hoff hhigh hlen
  have hsel : (Instr.rxLenLoBad b).selected s.cfg s.acc = true := by
    rw [Instr.selected, Memory.lengthMatches_of_read b hhigh, Bool.and_eq_true, beq_iff_eq, Bool.not_eq_true',
      beq_eq_false_iff_ne]
    exact ⟨hoff, hlen⟩
  exact exec_recovering_row_selected (.inr (.inl ⟨rfl, rfl⟩)) hsel

/-- Settles O13: the offset alone selects the row. -/
theorem bodyCompletes : Obligations.BodyCompletes := by
  intro s b hbody hroom
  rw [State.off_eq] at hbody hroom
  have hcap := four_lt_cap s.cfg
  have hsel : (Instr.rxBody b).selected s.cfg s.acc = true := by
    simp only [Instr.selected, Bool.and_eq_true, beq_iff_eq, phase_eq_readBody, decide_eq_true_eq]
    exact ⟨⟨hbody, by omega⟩, hroom⟩
  exact exec_storing_row_selected (.inr (.inr (.inr (.inr rfl)))) rfl hsel

/-- Settles O14: the Reading is the one decoded from the full frame, whose fields are the words of R59. -/
theorem lastOkCompletes : Obligations.LastOkCompletes := by
  intro s h b now hlast hhigh hsum
  rw [State.off_eq] at hlast
  have hcap := four_lt_cap s.cfg
  have hfull : (s.acc.push b).length = s.cfg.cap := by rw [Memory.length_push]; omega
  have hsel : (Instr.rxLastOk b now).selected s.cfg s.acc = true := by
    rw [Instr.selected, Bool.and_eq_true, beq_iff_eq]
    exact ⟨hlast, (Memory.checksumMatches_push_iff b hlast hhigh).mpr hsum⟩
  refine ⟨Memory.decodeReading s.cfg (s.acc.push b), decodeReading_length s.cfg _ hfull, ?_, ?_⟩
  · intro i hi hi' lo hhi hlo
    obtain ⟨h', l', hh', hl', hfield⟩ := fieldsDecodeAtTheirOffsets s.cfg _ i hfull hi
    cases hh'.symm.trans hhi
    cases hl'.symm.trans hlo
    exact hfield
  · exact (exec_rxLastOk_eq_next b now s _).mpr ⟨hsel, rfl⟩

/-- Settles O15: the received checksum is another one. -/
theorem lastBadCompletes : Obligations.LastBadCompletes := by
  intro s h b hlast hhigh hsum
  have hsel : (Instr.rxLastBad b).selected s.cfg s.acc = true := by
    rw [Instr.selected, Bool.and_eq_true, beq_iff_eq, Bool.not_eq_true', ← Bool.not_eq_true,
      Memory.checksumMatches_push_iff b hlast hhigh]
    exact ⟨hlast, hsum⟩
  exact exec_recovering_row_selected (.inr (.inr ⟨rfl, rfl⟩)) hsel

/-- IDLE and a discarded byte leave the event only (R75, R83). -/
theorem exec_quiet_row {i : Instr} {b : Byte} {s t : State} (hrow : i = .idle ∨ i = .rxSync1Miss b)
    (h : exec i s = .next t) : t = s.raise .none := by
  rcases hrow with rfl | rfl
  · cases h; rfl
  · exact ((onRow_eq_next _ _ _ _).mp h).2

/-- The readers' row and the encoder's leave a reply only (R101, R107). -/
theorem exec_answering_row {i : Instr} {r : Nat} {op dl dh : Byte} {active : Bool} {s t : State}
    (hrow : i = .snap r ∨ i = .enc op dl dh ∨ i = .wake ∨ i = .setmode active) (h : exec i s = .next t) :
    ∃ reply, t = s.answer reply := by
  rcases hrow with rfl | rfl | rfl | rfl
  · rw [exec_snap] at h
    exact ⟨_, ((execSnap_eq_next r s t).mp h).2⟩
  all_goals cases h; exact ⟨_, rfl⟩

/-- Settles O30: each of the three kinds of row writes one field, and what is no such field is as before. -/
theorem nonStoringRowsFrame : Obligations.NonStoringRowsFrame := by
  intro s t i b rd ts r op dl dh active h
  refine ⟨fun hrow => ?_, fun hrow => ?_, fun hrow => ?_⟩
  · obtain rfl := exec_quiet_row hrow h
    exact ⟨fun _ => rfl, rfl, rfl, rfl, rfl, rfl, rfl⟩
  · subst hrow
    cases h
    exact ⟨fun _ => rfl, rfl, rfl, rfl, rfl, rfl⟩
  · obtain ⟨reply, rfl⟩ := exec_answering_row hrow h
    exact ⟨fun _ => rfl, rfl, rfl, rfl, rfl, rfl⟩

end Sys2Proof.Machine
end

section
/-! Totality (R95): where the offset is below `CAP` every transaction of an existing port selects a row, a selected row
completes, and the offset is below `CAP` again. -/

namespace Sys2Proof.Machine

/-- Below `CAP` every byte selects an RX row (R73, R95). -/
theorem decodeRx_total {c : Config} {m : Memory} (b : Byte) (now : Nat) (hroom : m.length < c.cap) :
    ∃ i, decodeRx c m b now = .ok i := by
  unfold decodeRx
  split_ifs <;> simp
  -- The decoder's refusal is left: its offset is `CAP` or more.
  omega

/-- The port `rst` selects `RST` whatever stands beside it (R138). -/
theorem decode_rst (c : Config) (m : Memory) (v : Bool) (b : Byte) (now : Nat) :
    decode c ((Transaction.sync true v b now).selector m) = .ok .rst := by
  simp [Transaction.selector, decode, decodeStep_stepWord]

/-- A step with no byte is `IDLE` (R83). -/
theorem decode_idle (c : Config) (m : Memory) (b : Byte) (now : Nat) :
    decode c ((Transaction.sync false false b now).selector m) = .ok .idle := by
  simp [Transaction.selector, decode, decodeStep_stepWord]

/-- A byte selects its RX row: the word's five offset bits hold every resting offset (R14). -/
theorem decode_byte {c : Config} {m : Memory} (b : Byte) (now : Nat) (hroom : m.length < c.cap) :
    decode c ((Transaction.sync false true b now).selector m) = decodeRx c m b now := by
  simp [Transaction.selector, decode, decodeStep_stepWord, stepOff_of_wf c m hroom]

/-- Below `CAP` every transaction that a port can carry selects a row, which is selected and well formed. -/
theorem decode_of_valid {c : Config} {m : Memory} {x : Transaction} (hroom : m.length < c.cap)
    (hx : x.valid c = true) :
    ∃ i, decode c (x.selector m) = .ok i ∧ i.wf c = true ∧ i.selected c m = true := by
  cases x with
  | sync rst rxValid b now =>
    have hrow : ∃ i, decode c ((Transaction.sync rst rxValid b now).selector m) = .ok i := by
      match rst, rxValid with
      | true, v => exact ⟨_, decode_rst c m v b now⟩
      | false, false => exact ⟨_, decode_idle c m b now⟩
      | false, true =>
        rw [decode_byte b now hroom]
        exact decodeRx_total b now hroom
    obtain ⟨i, hi⟩ := hrow
    obtain ⟨hwf, hsel, -⟩ := (decoderGivesSelectedRows c i).1 _ _ _ hi
    exact ⟨i, hi, hwf, hsel⟩
  | snap r => exact ⟨.snap r, rfl, hx, rfl⟩
  | enc op dl dh =>
    obtain ⟨hwf, hsel, -⟩ := (decoderGivesSelectedRows c _).2.1 (encWord op dl dh) m rfl
    exact ⟨_, rfl, hwf, hsel⟩

/-- A well-formed row completes wherever it is selected. -/
theorem exec_completes {i : Instr} {s : State} (hwf : i.wf s.cfg = true) (hsel : i.selected s.cfg s.acc = true) :
    ∃ t, exec i s = .next t := by
  cases i with
  | rst | idle | update | enc | wake | setmode => exact ⟨_, rfl⟩
  | rxSync1Hit | rxSync1Miss | rxSync2Hit | rxSync2Miss | rxLenHi | rxLenLoOk | rxLenLoBad | rxBody | rxLastOk
  | rxLastBad => exact ⟨_, onRow_selected _ _ _ hsel⟩
  | snap r =>
    rw [exec_snap]
    exact ⟨_, (execSnap_eq_next r s _).mpr ⟨of_decide_eq_true hwf, rfl⟩⟩

/-- The selected RX rows of a byte are one row, but for the clock value of `RX.LAST_OK`, which no selection looks at:
each is the row the decoder gives beside the clock value 0. -/
theorem selected_rxByte_eq {c : Config} {m : Memory} {b : Byte} {i j : Instr} (hi : decodeRx c m b 0 = .ok i)
    (hj : j.rxByte = some b) (hsel : j.selected c m = true) :
    j = i ∨ ∃ n n', i = .rxLastOk b n ∧ j = .rxLastOk b n' := by
  by_cases hlast : ∃ n, j = .rxLastOk b n
  · obtain ⟨n, rfl⟩ := hlast
    have hzero : decodeRx c m b 0 = .ok (.rxLastOk b (c.portNow 0)) :=
      decodeRx_of_selected rfl hsel fun _ _ h => by cases h; rfl
    rw [hi] at hzero
    cases hzero
    exact .inr ⟨_, n, rfl, rfl⟩
  · have hnow : ∀ b' ts, j = .rxLastOk b' ts → ts = c.portNow 0 := by
      rintro b' ts rfl
      cases hj
      exact absurd ⟨ts, rfl⟩ hlast
    have hrow := decodeRx_of_selected hj hsel hnow
    rw [hi] at hrow
    cases hrow
    exact .inl rfl

/-- Settles O38: the decoder gives a row for the byte, that row completes, and it is the only one. -/
theorem synchronizerIsTotal : Obligations.SynchronizerIsTotal := by
  intro s b hroom
  obtain ⟨i, hi⟩ := decodeRx_total b 0 hroom
  have hsel := decodeRx_selected hi
  exact ⟨⟨i, decodeRx_rxByte hi, hsel, exec_completes (decodeRx_wf hi) hsel,
    fun _ hj hjsel => selected_rxByte_eq hi hj hjsel⟩, ⟨_, rfl⟩, ⟨_, rfl⟩⟩

/-- A step completes where the offset is below `CAP` and what is presented first, if anything is, can stand on a
port. -/
theorem step_completes {s : State} (hroom : s.acc.length < s.cfg.cap)
    (hvalid : ∀ x rest, s.pending = x :: rest → x.valid s.cfg = true) : ∃ t, step s = .next t := by
  cases hp : s.pending with
  | nil => exact ⟨_, step_of_nothing_pending hp⟩
  | cons x rest =>
    obtain ⟨i, hdec, hwf, hsel⟩ := decode_of_valid hroom (hvalid x rest hp)
    rw [step_of_decode_ok hp hdec]
    exact exec_completes hwf hsel

/-- A well-formed state has room for a byte (R14). -/
theorem State.room_of_wf {s : State} (h : s.wf = true) : s.acc.length < s.cfg.cap := by
  simp only [State.wf, Memory.wf, Bool.and_eq_true, decide_eq_true_eq] at h
  obtain ⟨⟨⟨-, hroom⟩, -⟩, -⟩ := h
  exact hroom

/-- Settles O39: of well-formedness a step needs only the room in the accumulator. -/
theorem stepAlwaysCompletes : Obligations.StepAlwaysCompletes :=
  fun _ hwf hvalid => step_completes (State.room_of_wf hwf) hvalid

/-- No row fills the accumulator: the last byte of a frame clears it (R30). -/
theorem RowEffect.keeps_room {s t : State} {i : Instr} (h : RowEffect s i t) (hroom : s.acc.length < s.cfg.cap) :
    t.acc.length < t.cfg.cap := by
  have hcap := four_lt_cap s.cfg
  have hclear : Memory.clear.length < s.cfg.cap := by rw [Memory.length_clear]; omega
  cases h with
  | reset | recovered | frameDone => exact hclear
  | quiet | updated | answered => exact hroom
  | stored i b room accepted => rwa [State.raise_acc, State.push_acc, Memory.length_push]

/-- What a run of `step_completes` needs: room in the accumulator, and nothing presented but what can stand on a
port. -/
structure State.Ready (s : State) : Prop where
  room : s.acc.length < s.cfg.cap
  valid : ∀ x ∈ s.pending, x.valid s.cfg = true

/-- A state that is ready takes a step, to a state that is ready. -/
theorem State.Ready.step {s : State} (hs : s.Ready) : ∃ t, step s = .next t ∧ t.Ready := by
  obtain ⟨t, ht⟩ := step_completes hs.room fun x rest hp => hs.valid x (hp ▸ List.mem_cons_self)
  obtain ⟨i, -, -, heff⟩ := step_rowEffect ht
  refine ⟨t, ht, heff.keeps_room (by rw [State.fetch_acc, State.fetch_cfg]; exact hs.room), ?_⟩
  rw [step_pending ht, step_cfg ht]
  exact fun x hx => hs.valid x (List.mem_of_mem_tail hx)

end Sys2Proof.Machine
end

section
/-! Runs of bytes: a byte that keeps the invariants of R17 is stored, and the last byte of a valid frame replaces the
store's pair (R84, R87, R92). -/

namespace Sys2Proof.Machine

/-- A byte's step runs its RX row. -/
theorem step_of_byte {s : State} {b : Byte} {now : Nat} {rest : List Transaction} {i : Instr}
    (hp : s.pending = .sync false true b now :: rest) (hroom : s.acc.length < s.cfg.cap)
    (hdec : decodeRx s.cfg s.acc b now = .ok i) : step s = exec i { s with pending := rest } :=
  step_of_decode_ok hp (by rw [decode_byte b now hroom, hdec])

/-- An accepted byte that does not fill the frame selects a row that stores it. -/
theorem decodeRx_of_accepts {c : Config} {m : Memory} {b : Byte} (now : Nat) (hroom : m.length + 1 < c.cap)
    (hb : m.Accepts c b) :
    ∃ i, decodeRx c m b now = .ok i ∧
      (i = .rxSync1Hit ∨ i = .rxSync2Hit ∨ i = .rxLenHi b ∨ i = .rxLenLoOk b ∨ i = .rxBody b) := by
  obtain ⟨hsync1, hsync2, hlow⟩ := hb
  match hoff : m.length with
  | 0 => exact ⟨.rxSync1Hit, by simp [decodeRx, hoff, hsync1 hoff], by simp⟩
  | 1 => exact ⟨.rxSync2Hit, by simp [decodeRx, hoff, hsync2 hoff], by simp⟩
  | 2 => exact ⟨.rxLenHi b, by simp [decodeRx, hoff], by simp⟩
  | 3 => exact ⟨.rxLenLoOk b, by simp [decodeRx, hoff, hlow hoff], by simp⟩
  | _ + 4 => exact ⟨.rxBody b, decodeRx_body b now (by omega) (by omega), by simp⟩

/-- The step of an accepted byte stores it. -/
theorem step_stores {s : State} {b : Byte} {now : Nat} {rest : List Transaction}
    (hp : s.pending = .sync false true b now :: rest) (hroom : s.acc.length + 1 < s.cfg.cap)
    (hb : s.acc.Accepts s.cfg b) :
    step s = .next { s with acc := s.acc ++ [b], ev := .none, pending := rest } := by
  obtain ⟨i, hdec, hrow⟩ := decodeRx_of_accepts now hroom hb
  rw [step_of_byte hp (by omega) hdec]
  exact exec_storing_row_selected hrow (decodeRx_rxByte hdec) (decodeRx_selected hdec)

/-- Each byte of a sequence is accepted behind the ones before it. -/
def Memory.AcceptsAll (c : Config) : Memory → List Byte → Prop
  | _, [] => True
  | m, b :: bs => m.Accepts c b ∧ AcceptsAll c (m.push b) bs

/-- From offset 4 on every byte is accepted (R81, R84). -/
theorem Memory.acceptsAll_of_body (c : Config) {m : Memory} (bs : List Byte) (hbody : 4 ≤ m.length) :
    m.AcceptsAll c bs := by
  induction bs generalizing m with
  | nil => trivial
  | cons b bs ih =>
    exact ⟨⟨by omega, by omega, by omega⟩, ih (by rw [length_push]; omega)⟩

/-- What the invariants of R17 hold of, they hold of its first bytes. -/
theorem prefixOk_of_append {c : Config} {m bs : List Byte} (h : prefixOk c (m ++ bs) = true) :
    prefixOk c m = true := by
  have hread (a : Nat) (ha : a < m.length) : Memory.read (m ++ bs) a = Memory.read m a :=
    List.getElem?_append_left ha
  rw [prefixOk_iff, List.length_append] at h
  rw [prefixOk_iff]
  obtain ⟨hsync1, hsync2, hlen⟩ := h
  refine ⟨fun hoff => ?_, fun hoff => ?_, fun hoff => ?_⟩
  · rw [← hread 0 (by omega)]
    exact hsync1 (by omega)
  · rw [← hread 1 (by omega)]
    exact hsync2 (by omega)
  · rw [← hlen (by omega), Memory.read16, Memory.read16, hread 2 (by omega), hread (2 + 1) (by omega)]

/-- Where the invariants of R17 hold after a byte, it was accepted; the converse of `prefixOk_push`. -/
theorem accepts_of_prefixOk_push {c : Config} {m : Memory} {b : Byte} (h : prefixOk c (m.push b) = true) :
    m.Accepts c b := by
  rw [prefixOk_iff, Memory.length_push] at h
  obtain ⟨hsync1, hsync2, hlen⟩ := h
  refine ⟨fun hoff => ?_, fun hoff => ?_, fun hoff => ?_⟩
  · simpa [Memory.read_push, hoff] using hsync1 (by omega)
  · simpa [Memory.read_push, hoff] using hsync2 (by omega)
  · obtain ⟨hi, lo, hhi, hlo, hword⟩ := (Memory.read16_eq_some _ _ _).mp (hlen (by omega))
    rw [Memory.read_push, if_neg (by omega)] at hhi
    rw [Memory.read_push, if_pos (by omega)] at hlo
    cases hlo
    exact (Memory.lengthMatches_iff c m b).mpr ⟨hi, hhi, hword⟩

/-- Bytes behind which the invariants of R17 hold were all accepted. -/
theorem Memory.acceptsAll_of_prefixOk {c : Config} {m : Memory} {bs : List Byte}
    (h : prefixOk c (m ++ bs) = true) : m.AcceptsAll c bs := by
  induction bs generalizing m with
  | nil => trivial
  | cons b bs ih =>
    have hpush : prefixOk c (m.push b ++ bs) = true := by rwa [push, List.append_assoc]
    exact ⟨accepts_of_prefixOk_push (prefixOk_of_append hpush), ih hpush⟩

/-- Accepted bytes that do not fill the frame are all stored, in order, and nothing else changes but the event. -/
theorem run_stores {s : State} {bs : List (Byte × Nat)} {rest : List Transaction}
    (hp : s.pending = presentTimed bs ++ rest) (hroom : s.acc.length + bs.length < s.cfg.cap)
    (hall : s.acc.AcceptsAll s.cfg (bs.map (·.1))) (hev : bs = [] → s.ev = .none) :
    run bs.length s = .next { s with acc := s.acc ++ bs.map (·.1), ev := .none, pending := rest } := by
  induction bs generalizing s with
  | nil =>
    obtain ⟨cfg, acc, store, ev, pending, replies⟩ := s
    cases hp
    cases hev rfl
    simp
  | cons p bs ih =>
    obtain ⟨hb, hbs⟩ := hall
    rw [List.length_cons] at hroom
    have hroom' : (s.acc.push p.1).length + bs.length < s.cfg.cap := by rw [Memory.length_push]; omega
    rw [List.length_cons, run_succ _ _ _ (step_stores hp (by omega) hb), ih rfl hroom' hbs fun _ => rfl,
      List.append_assoc]
    rfl

/-- The step of the last byte of a valid frame stores its Reading with the clock value on the port (R87). -/
theorem step_last_ok {s : State} {b : Byte} {now : Nat} {rest : List Transaction}
    (hp : s.pending = .sync false true b now :: rest) (hlast : s.acc.length + 1 = s.cfg.cap)
    (hsum : (s.acc.push b).checksumMatches s.cfg = true) :
    step s = .next { s with
      acc := [], store := { reading := Memory.decodeReading s.cfg (s.acc.push b), ts := s.cfg.portNow now },
      ev := .frameOk, pending := rest } := by
  have hdec : decodeRx s.cfg s.acc b now = .ok (.rxLastOk b (s.cfg.portNow now)) := by
    rw [decodeRx_last b now (by omega), if_pos hsum]
  rw [step_of_byte hp (by omega) hdec]
  exact (exec_rxLastOk_eq_next _ _ _ _).mpr ⟨decodeRx_selected hdec, rfl⟩

/-- A full accumulator's worth of bytes from offset 0 on that are a valid frame (R92). -/
theorem run_valid_frame {s : State} {bs : List (Byte × Nat)} {last : Nat} {rest : List Transaction}
    (hacc : s.acc = []) (hp : s.pending = presentTimed bs ++ rest) (hfull : bs.length = s.cfg.cap)
    (hlast : (bs.map (·.2)).getLast? = some last) (hok : prefixOk s.cfg (bs.map (·.1)) = true)
    (hsum : Memory.checksumMatches s.cfg (bs.map (·.1)) = true) :
    run bs.length s = .next { s with
      acc := [], store := { reading := Memory.decodeReading s.cfg (bs.map (·.1)), ts := s.cfg.portNow last },
      ev := .frameOk, pending := rest } := by
  have hcap := four_lt_cap s.cfg
  rcases List.eq_nil_or_concat' bs with rfl | ⟨init, p, rfl⟩
  · simp at hlast
  rw [List.length_append, List.length_singleton] at hfull ⊢
  simp only [List.map_append, List.map_cons, List.map_nil, List.getLast?_concat,
    Option.some.injEq] at hlast hok hsum ⊢
  subst hlast
  have hinit : s.acc.AcceptsAll s.cfg (init.map (·.1)) :=
    Memory.acceptsAll_of_prefixOk (by rw [hacc]; exact prefixOk_of_append hok)
  have hne : init ≠ [] := by rintro rfl; simp at hfull; omega
  have hstored := run_stores (rest := .sync false true p.1 p.2 :: rest)
    (by rw [hp, presentTimed, List.map_append, List.append_assoc]; rfl) (by rw [hacc]; simp; omega) hinit
    fun h => absurd h hne
  rw [hacc, List.nil_append] at hstored
  rw [run_add _ _ _ _ hstored, run_succ _ _ _ (step_last_ok rfl (by simpa using hfull) hsum), run_zero]
  rfl

/-- A frame begins as R17 asks (R55). -/
theorem prefixOk_frame (c : Config) (fs : Reading) : prefixOk c (frame c fs) = true := by
  rw [prefixOk_iff]
  refine ⟨fun _ => rfl, fun _ => rfl, fun _ => ?_⟩
  exact (Memory.read16_eq_some _ _ _).mpr ⟨_, _, rfl, rfl, be16_extract _⟩

/-- The bytes of a frame before its checksum. -/
theorem frame_eq_append (c : Config) (fs : Reading) (hfs : fs.length = c.nfields) :
    ∃ head : List Byte, head.length = c.cap - 2 ∧ frame c fs = head ++ wordBytes (byteSum head) := by
  have hlen := frame_length c fs hfs
  refine ⟨_, ?_, rfl⟩
  rw [frame, List.length_append, wordBytes_length] at hlen
  omega

/-- A frame ends with the sum of the bytes before (R58, R71). -/
theorem checksumMatches_frame {c : Config} {fs : Reading} (hfs : fs.length = c.nfields) :
    Memory.checksumMatches c (frame c fs) = true := by
  have hcap := four_lt_cap c
  obtain ⟨head, hhead, hframe⟩ := frame_eq_append c fs hfs
  have hhigh : Memory.read (frame c fs) (c.cap - 2) = some ((byteSum head).extractLsb' 8 8) := by
    rw [hframe, Memory.read, ← hhead, List.getElem?_append_right le_rfl, Nat.sub_self]
    rfl
  have hlow : Memory.read (frame c fs) (c.cap - 1) = some ((byteSum head).extractLsb' 0 8) := by
    rw [hframe, Memory.read, show c.cap - 1 = head.length + 1 by omega, List.getElem?_append_right (by omega),
      Nat.add_sub_cancel_left]
    rfl
  rw [Memory.checksumMatches_iff hhigh hlow, be16_extract, hframe, ← hhead, List.take_left]

/-- Decoding a frame gives its fields back (R59, R71). -/
theorem decodeReading_frame {c : Config} {fs : Reading} (hfs : fs.length = c.nfields) :
    Memory.decodeReading c (frame c fs) = fs := by
  have hbody : ∃ checksum, (frame c fs).drop 4 = fs.flatMap wordBytes ++ checksum := ⟨_, rfl⟩
  obtain ⟨checksum, hbody⟩ := hbody
  rw [Memory.decodeReading, hbody, List.take_left' (by rw [flatMap_wordBytes_length, hfs]), beWords_wordBytes]

/-- What is presented to an empty queue is drained in as many steps. -/
theorem drain_present {s : State} (hp : s.pending = []) (ts : List Transaction) :
    drain (s.present ts) = run ts.length (s.present ts) := by
  rw [drain, State.present_pending, hp, List.nil_append]

/-- Settles O46: from offset 4 on every byte is accepted, so the run stores them all. -/
theorem bodyBytesNeverChangeThePath : Obligations.BodyBytesNeverChangeThePath := by
  intro s bs hbody hroom hp hev
  rw [drain_present hp, length_presentTimed,
    run_stores (s := s.present _) (rest := []) (by simp [hp]) hroom (Memory.acceptsAll_of_body _ _ hbody) fun _ => hev]
  simp [hp, hev]

/-- Bytes with the clock shown at each are timed bytes. -/
theorem zipWith_sync_eq_presentTimed (bs : List Byte) (nows : List Nat) :
    List.zipWith (fun b now => Transaction.sync false true b now) bs nows = presentTimed (bs.zip nows) := by
  rw [presentTimed, List.map_zip_eq_zipWith]
  rfl

/-- Settles O47: a frame of the right length is a valid one, and decodes to its fields. -/
theorem validFrameIsRecognised : Obligations.ValidFrameIsRecognised := by
  intro s fs nows last hacc hp hfs hnows hlast hfits
  have hlen := frame_length s.cfg fs hfs
  have hbytes : ((frame s.cfg fs).zip nows).map (·.1) = frame s.cfg fs := List.map_fst_zip (by omega)
  have htimes : ((frame s.cfg fs).zip nows).map (·.2) = nows := List.map_snd_zip (by omega)
  rw [drain_present hp, zipWith_sync_eq_presentTimed, length_presentTimed,
    run_valid_frame (s := s.present _) (last := last) (rest := []) hacc (by simp [hp]) ?full ?clock ?start ?checksum]
  case full => rw [List.length_zip, hlen, hnows, Nat.min_self]; rfl
  case clock => rw [htimes, List.getLast?_eq_getElem?, hnows, hlast]
  case start => rw [hbytes]; exact prefixOk_frame s.cfg fs
  case checksum => rw [hbytes]; exact checksumMatches_frame hfs
  simp [hp, hbytes, decodeReading_frame hfs, portNow_of_lt hfits]

end Sys2Proof.Machine
end

section
/-! Garbage (R92, first case): before a start marker the synchronizer only counts a run of 0x42 modulo 2. -/

namespace Sys2Proof.Machine

/-- A start marker is the two start bytes side by side (R92). -/
theorem hasMarker_iff (bs : List Byte) : hasMarker bs = true ↔ [sync1, sync2] <:+: bs := by
  induction bs using hasMarker.induct with
  | case1 a b rest ih =>
    rw [hasMarker, Bool.or_eq_true, ih, List.infix_cons_iff (l₂ := b :: rest), List.cons_prefix_cons,
      List.cons_prefix_cons]
    simp [eq_comm (a := sync1), eq_comm (a := sync2)]
  | case2 bs hshort =>
    match bs, hshort with
    | [], _ => simp [hasMarker]
    | [a], _ => simp [hasMarker, List.infix_cons_iff, List.cons_prefix_cons]
    | a :: b :: rest, hshort => exact absurd rfl (hshort a b rest)

/-- One more byte makes a run of 0x42 longer or ends it. -/
theorem trailingSync1_append_singleton (bs : List Byte) (b : Byte) :
    trailingSync1 (bs ++ [b]) = if b = sync1 then trailingSync1 bs + 1 else 0 := by
  unfold trailingSync1
  rw [List.reverse_append, List.reverse_singleton, List.singleton_append, List.takeWhile_cons]
  split_ifs <;> simp_all

/-- A run of 0x42 at the end has a last byte. -/
theorem exists_append_sync1 {bs : List Byte} (h : 0 < trailingSync1 bs) : ∃ init, bs = init ++ [sync1] := by
  rcases List.eq_nil_or_concat' bs with rfl | ⟨init, b, rfl⟩
  · cases h
  · rw [trailingSync1_append_singleton] at h
    split_ifs at h with hb
    · exact ⟨init, by rw [hb]⟩
    · cases h

/-- Before a start marker a byte is the candidate's first byte exactly where it is 0x42 and there is no candidate yet:
any other byte is discarded, with the candidate if there is one (R74, R75, R77). -/
theorem step_seek {s : State} {b : Byte} {now : Nat} {rest : List Transaction}
    (hp : s.pending = .sync false true b now :: rest) (hoff : s.acc.length ≤ 1)
    (hmark : s.acc.length = 1 → b ≠ sync2) :
    ∃ t, step s = .next t ∧ t.pending = rest ∧ t.store = s.store ∧
      t.acc.length = if b = sync1 then 1 - s.acc.length else 0 := by
  have hcap := four_lt_cap s.cfg
  rcases Nat.le_one_iff_eq_zero_or_eq_one.mp hoff with h0 | h1
  · by_cases hb : b = sync1
    · refine ⟨_, step_stores hp (by omega) ⟨fun _ => hb, by omega, by omega⟩, rfl, rfl, ?_⟩
      simp [hb, h0]
    · have hdec : decodeRx s.cfg s.acc b now = .ok (.rxSync1Miss b) := by simp [decodeRx, h0, hb]
      refine ⟨_, (step_of_byte hp (by omega) hdec).trans (sync1MissCompletes _ b h0 hb), rfl, rfl, ?_⟩
      rw [if_neg hb]
      exact h0
  · have hb := hmark h1
    have hdec : decodeRx s.cfg s.acc b now = .ok (.rxSync2Miss b) := by simp [decodeRx, h1, hb]
    refine ⟨_, (step_of_byte hp (by omega) hdec).trans (sync2MissCompletes _ b h1 hb), rfl, rfl, ?_⟩
    simp [h1]

/-- Bytes with no start marker among them, from offset 0 on: the offset is the parity of the run of 0x42 they end
with. -/
theorem run_garbage {s : State} {bs : List (Byte × Nat)} {rest : List Transaction} (hacc : s.acc = [])
    (hp : s.pending = presentTimed bs ++ rest) (hmark : hasMarker (bs.map (·.1)) = false) :
    ∃ t, run bs.length s = .next t ∧ t.pending = rest ∧ t.store = s.store ∧
      t.acc.length = trailingSync1 (bs.map (·.1)) % 2 := by
  induction bs using List.reverseRecOn generalizing rest with
  | nil => exact ⟨s, rfl, hp, rfl, by rw [hacc]; rfl⟩
  | append_singleton bs p ih =>
    rw [List.map_append, List.map_singleton, ← Bool.not_eq_true, hasMarker_iff] at hmark
    have hmark' : hasMarker (bs.map (·.1)) = false := by
      rw [← Bool.not_eq_true, hasMarker_iff]
      exact fun h => hmark (h.trans (List.prefix_append _ _).isInfix)
    have hp' : s.pending = presentTimed bs ++ .sync false true p.1 p.2 :: rest := by simp [hp, presentTimed]
    obtain ⟨t, hrun, hpt, hstore, hoff⟩ := ih hp' hmark'
    have hsecond : t.acc.length = 1 → p.1 ≠ sync2 := by
      intro h1 hb
      obtain ⟨init, hinit⟩ := exists_append_sync1 (bs := bs.map (·.1)) (by omega)
      rw [hinit, hb] at hmark
      exact hmark ⟨init, [], by simp⟩
    obtain ⟨u, hstep, hpu, hstore', hoff'⟩ := step_seek hpt (by omega) hsecond
    refine ⟨u, ?_, hpu, hstore'.trans hstore, ?_⟩
    · rw [List.length_append, List.length_singleton, run_add _ _ _ _ hrun, run_succ _ _ _ hstep, run_zero]
    · rw [hoff', List.map_append, List.map_singleton, trailingSync1_append_singleton, hoff]
      split_ifs <;> omega

/-- Settles O49: the run of the garbage, the queue being empty before. -/
theorem garbageLeavesOffsetZeroOrOne : Obligations.GarbageLeavesOffsetZeroOrOne := by
  intro s bs hacc hp hmark
  obtain ⟨t, hrun, -, hstore, hoff⟩ :=
    run_garbage (s := s.present (presentTimed bs)) (rest := []) hacc (by simp [hp]) hmark
  exact ⟨t, by rw [drain_present hp, length_presentTimed, hrun], hoff, hstore⟩

end Sys2Proof.Machine
end

section
/-! IDLE steps change no result (R93): two states that agree in everything but the event and the queue still agree
after the same transaction, and an IDLE changes nothing of what they agree in. -/

namespace Sys2Proof.Machine

/-- The states agree in everything but the event and what is presented. -/
structure SameResults (s u : State) : Prop where
  cfg : u.cfg = s.cfg
  acc : u.acc = s.acc
  store : u.store = s.store
  replies : u.replies = s.replies

/-- States with the same results differ in the event and the queue only. -/
theorem SameResults.eq_with {s u : State} (h : SameResults s u) : u = { s with ev := u.ev, pending := u.pending } := by
  obtain ⟨cfg, acc, store, ev, pending, replies⟩ := u
  obtain ⟨rfl, rfl, rfl, rfl⟩ := h
  rfl

/-- No row looks at the event or the queue: it has the same results in both states, and a row of the synchronizer
writes the same event. -/
theorem SameResults.exec {s u t : State} {i : Instr} (h : SameResults s u) (hexec : Machine.exec i s = .next t) :
    ∃ v, Machine.exec i u = .next v ∧ SameResults t v ∧
      (i = .rst ∨ i = .idle ∨ (∃ b, i.rxByte = some b) → v.ev = t.ev) := by
  rw [h.eq_with]
  cases i with
  | rst | idle => cases hexec; exact ⟨_, rfl, ⟨rfl, rfl, rfl, rfl⟩, fun _ => rfl⟩
  | rxSync1Hit | rxSync1Miss | rxSync2Hit | rxSync2Miss | rxLenHi | rxLenLoOk | rxLenLoBad | rxBody | rxLastOk
  | rxLastBad =>
    obtain ⟨hsel, rfl⟩ := (onRow_eq_next _ _ _ _).mp hexec
    exact ⟨_, onRow_selected _ _ _ hsel, ⟨rfl, rfl, rfl, rfl⟩, fun _ => rfl⟩
  | snap r =>
    rw [exec_snap] at hexec
    obtain ⟨hport, rfl⟩ := (execSnap_eq_next r s t).mp hexec
    exact ⟨_, (execSnap_eq_next r _ _).mpr ⟨hport, rfl⟩, ⟨rfl, rfl, rfl, rfl⟩, by simp [Instr.rxByte]⟩
  | update | enc | wake | setmode =>
    cases hexec
    exact ⟨_, rfl, ⟨rfl, rfl, rfl, rfl⟩, by simp [Instr.rxByte]⟩

/-- A step of the synchronizer runs a row of its own: reset, idle or an RX row (R69). -/
theorem decode_selector_sync {c : Config} {m : Memory} {x : Transaction} {i : Instr} (hx : x.isSync = true)
    (h : decode c (x.selector m) = .ok i) : i = .rst ∨ i = .idle ∨ ∃ b, i.rxByte = some b := by
  rcases decode_selector_cases h with ⟨-, -, -, -, rfl⟩ | ⟨-, -, -, rfl⟩ | ⟨b, now, -, hrx⟩ | ⟨r, rfl, -⟩ |
    ⟨op, dl, dh, rfl, -⟩
  · exact .inl rfl
  · exact .inr (.inl rfl)
  · exact .inr (.inr ⟨b, decodeRx_rxByte hrx⟩)
  all_goals cases hx

/-- The same transaction presented to states with the same results. -/
theorem SameResults.step {s u t : State} {x : Transaction} {rest rest' : List Transaction} (h : SameResults s u)
    (hs : s.pending = x :: rest) (hu : u.pending = x :: rest') (hstep : Machine.step s = .next t) :
    ∃ v, Machine.step u = .next v ∧ SameResults t v ∧ (x.isSync = true → v.ev = t.ev) := by
  obtain ⟨i, hdec, hexec⟩ := step_eq_next hstep
  rw [State.fetch_cons s x rest hs] at hdec hexec
  have hfetched : SameResults { s with pending := rest } { u with pending := rest' } :=
    ⟨h.cfg, h.acc, h.store, h.replies⟩
  obtain ⟨v, hv, hsame, hev⟩ := hfetched.exec hexec
  refine ⟨v, ?_, hsame, fun hx => hev (decode_selector_sync hx hdec)⟩
  rw [step_of_decode_ok hu (by rw [h.cfg, h.acc]; exact hdec), hv]

/-- An IDLE step writes the event only. -/
theorem step_of_isIdle {s : State} {x : Transaction} {rest : List Transaction} (hp : s.pending = x :: rest)
    (hx : x.isIdle = true) : step s = .next { s with ev := .none, pending := rest } := by
  match x, hx with
  | .sync false false b now, _ => exact step_of_decode_ok hp (decode_idle s.cfg s.acc b now)

/-- The first step of a drain. -/
theorem drain_cons {s t : State} {x : Transaction} {rest : List Transaction} (hp : s.pending = x :: rest)
    (h : step s = .next t) : drain s = drain t := by
  rw [drain, drain, step_pending h, hp, List.length_cons, run_succ _ _ _ h, List.tail_cons]

/-- The events of a drain from its first step on: that step's transaction decides whether its event is recorded. -/
theorem drainEvents_cons {s t : State} {x : Transaction} {rest : List Transaction} (hp : s.pending = x :: rest)
    (h : step s = .next t) :
    drainEvents s = if x.isSync && !x.isIdle then t.ev :: drainEvents t else drainEvents t := by
  rw [drainEvents, drainEvents, step_pending h, hp, List.length_cons, events_succ _ _ _ h, State.stepsBusy,
    State.fetch_cons s x rest hp, List.tail_cons]

/-- A drain of what is presented, beside the drain of the same without its IDLE steps. -/
theorem drain_filter_idle {s u : State} (hs : s.Ready) (h : SameResults s u)
    (hu : u.pending = s.pending.filter fun x => !x.isIdle) :
    ∃ t v, drain s = .next t ∧ drain u = .next v ∧ SameResults t v ∧ drainEvents u = drainEvents s := by
  induction hp : s.pending generalizing s u with
  | nil =>
    rw [hp, List.filter_nil] at hu
    exact ⟨s, u, by rw [drain, hp]; rfl, by rw [drain, hu]; rfl, h, by rw [drainEvents, drainEvents, hp, hu]; rfl⟩
  | cons x rest ih =>
    obtain ⟨s', hstep, hs'⟩ := hs.step
    have hp' : s'.pending = rest := by rw [step_pending hstep, hp, List.tail_cons]
    rw [hp, List.filter_cons] at hu
    rw [drain_cons hp hstep, drainEvents_cons hp hstep]
    cases hx : x.isIdle with
    | true =>
      simp only [hx, Bool.not_true, Bool.false_eq_true, if_false] at hu
      have hsame : SameResults s' u := by
        cases hstep.symm.trans (step_of_isIdle hp hx)
        exact ⟨h.cfg, h.acc, h.store, h.replies⟩
      simpa [hx] using ih hs' hsame (by rw [hu, hp']) hp'
    | false =>
      simp only [hx, Bool.not_false, if_true] at hu
      obtain ⟨u', hstep', hsame, hev⟩ := h.step hp hu hstep
      have hu' : u'.pending = s'.pending.filter fun x => !x.isIdle := by
        rw [step_pending hstep', hu, List.tail_cons, hp']
      obtain ⟨t, v, ht, hv, hresults, hevents⟩ := ih hs' hsame hu' hp'
      refine ⟨t, v, ht, by rw [drain_cons hu hstep', hv], hresults, ?_⟩
      rw [drainEvents_cons hu hstep', hevents, hx, Bool.not_false, Bool.and_true]
      split_ifs with hsync
      · rw [hev hsync]
      · rfl

/-- Settles O52: the two drains begin in states that differ in the queue only. -/
theorem idleStepsNeverMatter : Obligations.IdleStepsNeverMatter := by
  intro s ts hwf hp hvalid
  have hready : (s.present ts).Ready := ⟨State.room_of_wf hwf, by simpa [hp] using hvalid⟩
  obtain ⟨t, u, ht, hu, hsame, hevents⟩ := drain_filter_idle hready
    (u := s.present (ts.filter fun x => !x.isIdle)) ⟨rfl, rfl, rfl, rfl⟩ (by simp [hp])
  exact ⟨t, u, ht, hu, hsame.acc.symm, hsame.store.symm, hsame.replies.symm, hevents.symm⟩

end Sys2Proof.Machine
end

section
/-! The frame checksum as a number (R89): the bytes before it are too few for their sum to wrap. -/

namespace Sys2Proof.Machine

/-- The 16-bit sum is the sum modulo 65536 (R10). -/
theorem byteSum_toNat (bs : List Byte) : (byteSum bs).toNat = (bs.map BitVec.toNat).sum % 65536 := by
  induction bs with
  | nil => rfl
  | cons b bs ih =>
    rw [byteSum, BitVec.toNat_add, ih, BitVec.toNat_setWidth, List.map_cons, List.sum_cons]
    omega

/-- No byte is above 255. -/
theorem sum_bytes_le (bs : List Byte) : (bs.map BitVec.toNat).sum ≤ 255 * bs.length := by
  induction bs with
  | nil => rfl
  | cons b bs ih =>
    rw [List.map_cons, List.sum_cons, List.length_cons]
    have := b.isLt
    omega

/-- The two bytes of a small word: the high one is 0. -/
theorem bytes_of_be16_lt {h l : Byte} (hword : (be16 h l).toNat < 256) : h.toNat + l.toNat = (be16 h l).toNat := by
  rw [be16_toNat] at hword ⊢
  omega

/-- The first four bytes of a frame are fixed (R56, R62), and so is their sum. -/
theorem sum_header {c : Config} {m : Memory} (hlen : 4 ≤ m.length) (hok : prefixOk c m = true) :
    ((m.take 4).map BitVec.toNat).sum = 143 + c.lenExpected.toNat := by
  obtain ⟨hsync1, hsync2, hlength⟩ := (prefixOk_iff c m).mp hok
  match m, hlen with
  | b0 :: b1 :: h :: l :: _, hlen =>
    cases hsync1 (by omega)
    cases hsync2 (by omega)
    have hword : be16 h l = c.lenExpected := by
      obtain ⟨_, _, ⟨⟩, ⟨⟩, hword⟩ := (Memory.read16_eq_some _ _ _).mp (hlength hlen)
      exact hword
    have hsmall : (be16 h l).toNat < 256 := by
      rcases variant_cases c with ⟨-, -, -, hexp⟩ | ⟨-, -, -, hexp⟩ <;> rw [hword, hexp] <;> decide
    have hbytes := bytes_of_be16_lt hsmall
    rw [hword] at hbytes
    show (0x42 + (0x4D + (h.toNat + (l.toNat + 0))) : Nat) = 143 + c.lenExpected.toNat
    omega

/-- What a frame of `CAP` bytes holds besides its fields: the first four bytes and the checksum (R55). -/
theorem cap_eq (c : Config) : c.cap = 4 + 2 * c.nfields + 2 := by
  rcases variant_cases c with ⟨-, hcap, hfields, -⟩ | ⟨-, hcap, hfields, -⟩ <;> rw [hcap, hfields]

/-- The bytes that the checksum covers are the fixed four and `NFIELDS` words of any value. -/
theorem sum_before_checksum_bounds {c : Config} {m : Memory} (hfull : m.length = c.cap) (hok : prefixOk c m = true) :
    143 + c.lenExpected.toNat ≤ ((m.take (c.cap - 2)).map BitVec.toNat).sum ∧
      ((m.take (c.cap - 2)).map BitVec.toNat).sum ≤ 143 + c.lenExpected.toNat + 255 * (2 * c.nfields) := by
  have hcap := cap_eq c
  have hheader := sum_header (by omega) hok
  have hbody := (sum_bytes_le ((m.drop 4).take (2 * c.nfields))).trans
    (Nat.mul_le_mul_left 255 (List.length_take_le _ _))
  rw [show c.cap - 2 = 4 + 2 * c.nfields by omega, List.take_add, List.map_append, List.sum_append, hheader]
  omega

/-- Settles O57: the bounds of the sum are below 65536, and VALIDATE compares the received word with that sum. -/
theorem frameChecksumNeverWraps : Obligations.FrameChecksumNeverWraps := by
  intro c m hfull hok lo hi sum
  have hbounds : lo ≤ sum ∧ sum ≤ hi ∧ hi < 65536 := by
    obtain ⟨hlo, hhi⟩ := sum_before_checksum_bounds hfull hok
    rcases variant_cases c with ⟨hv, -, hfields, hexp⟩ | ⟨hv, -, hfields, hexp⟩
    all_goals
      rw [hexp] at hlo hhi
      rw [hfields] at hhi
      simp only [lo, hi, hv]
      exact ⟨hlo, hhi, by decide⟩
  obtain ⟨hlo, hhi, hwide⟩ := hbounds
  have hsum : (m.sum16 0 (c.cap - 3)).toNat = sum := by
    rw [Memory.sum16_before_checksum, byteSum_toNat, Nat.mod_eq_of_lt (hhi.trans_lt hwide)]
  refine ⟨hlo, hhi, hsum, fun received hread hout => ?_⟩
  rw [← Bool.not_eq_true, Memory.checksumMatches, hread, beq_iff_eq, Option.some_inj]
  rintro rfl
  omega

end Sys2Proof.Machine
end

section
/-! The obligations of 41_store.md: who writes the pair (R97, R99), what a snapshot takes of it (R101, R104), and how
old the timestamp of a frame can be (R106). -/

namespace Sys2Proof.Machine

/-- Settles O17: UPDATE means the store write, which looks at no pair. -/
theorem updateCompletes : Obligations.UpdateCompletes := fun _ _ _ => rfl

/-- Settles O18: SNAP means `execSnap`, which answers the pair at every index below `N_READERS`. -/
theorem snapCompletes : Obligations.SnapCompletes := by
  intro s r hport
  rw [exec_snap]
  exact (execSnap_eq_next r s _).mpr ⟨hport, rfl⟩

/-- The step of a presented snapshot answers the pair and takes the snapshot from the queue. -/
theorem step_snap {s : State} {r : Nat} {rest : List Transaction} (hp : s.pending = .snap r :: rest)
    (hport : r < s.cfg.nReaders) :
    step s = .next { s with pending := rest, replies := s.replies ++ [.snapshot r s.store] } := by
  rw [step_of_decode_ok hp rfl]
  exact snapCompletes { s with pending := rest } r hport

/-- Snapshots presented one behind the other all answer the same pair: none of them writes the store (R101). -/
theorem run_snaps {s : State} {samples : List Nat} {rest : List Transaction}
    (hp : s.pending = samples.map .snap ++ rest) (hports : ∀ r ∈ samples, r < s.cfg.nReaders) :
    run samples.length s = .next { s with
      pending := rest, replies := s.replies ++ samples.map fun r => .snapshot r s.store } := by
  induction samples generalizing s with
  | nil =>
    obtain ⟨cfg, acc, store, ev, pending, replies⟩ := s
    cases hp
    simp
  | cons r samples ih =>
    obtain ⟨hport, hports⟩ := List.forall_mem_cons.mp hports
    rw [List.length_cons, run_succ _ _ _ (step_snap hp hport)]
    simpa using ih (s := { s with
      pending := samples.map .snap ++ rest, replies := s.replies ++ [.snapshot r s.store] }) rfl hports

/-- Settles O55: an edge presents its samples before its synchronizer step (R129), so they all run on the store from
before that step. -/
theorem snapshotsAtAnEdgeReturnTheOldPair : Obligations.SnapshotsAtAnEdgeReturnTheOldPair := by
  intro s e rest hp hports
  rw [Edge.transactions, List.append_assoc] at hp
  exact run_snaps hp hports

/-- Settles O42: the three cases of `step_store_cases`, with a clock value that fits the port carried unchanged. -/
theorem onlyResetAndValidFramesWriteTheStore : Obligations.OnlyResetAndValidFramesWriteTheStore := by
  intro s t h
  rcases step_store_cases h with hsame | ⟨v, b, now, hp, hzeroed⟩ | ⟨b, now, hp, hlast, hev, hwrite⟩
  · exact .inl hsame
  · exact .inr (.inl ⟨v, b, now, _, hp, hzeroed⟩)
  · refine .inr (.inr ⟨b, now, _, hp, hlast, hev, ?_, fun hfits => ?_⟩) <;> rw [hwrite]
    · rfl
    · exact portNow_of_lt hfits

/-- Settles O48: the timestamp is the clock value of the frame's last byte, which a non-decreasing clock shows after
every earlier value. -/
theorem frameTimestampIsNotBeforeItsFirstByte : Obligations.FrameTimestampIsNotBeforeItsFirstByte := by
  intro s fs nows before hacc hp hfs hnows hmono hfits
  have hcap := four_lt_cap s.cfg
  obtain ⟨last, hlast⟩ : ∃ last, nows[s.cfg.cap - 1]? = some last := ⟨_, List.getElem?_eq_getElem (by omega)⟩
  have hmem : last ∈ nows := List.mem_of_getElem? hlast
  exact ⟨_, validFrameIsRecognised s fs nows last hacc hp hfs hnows hlast (hfits last hmem), rfl,
    List.rel_of_pairwise_cons hmono hmem⟩

end Sys2Proof.Machine
end

section
/-! The obligations of 42_encoder.md: the seven bytes of a command and its checksum (R108, R109), `WAKE` and `SETMODE` as
names of two of its words (R110, R111), and a command seen as inbound bytes (R114). -/

namespace Sys2Proof.Machine

/-- The transaction ENC answers its command and has no other effect (R26, R108). -/
theorem exec_enc (op dl dh : Byte) (s : State) :
    exec (.enc op dl dh) s = .next (s.answer (.command (commandBytes op dl dh))) := rfl

/-- `WAKE` runs as the `ENC` it is short for (R110). -/
theorem exec_wake (s : State) : exec .wake s = exec (.enc opSleep 1 0) s := rfl

/-- `SETMODE` runs as the `ENC` it is short for (R111). -/
theorem exec_setmode (active : Bool) (s : State) :
    exec (.setmode active) s = exec (.enc s.cfg.opMode (if active then 1 else 0) 0) s := rfl

/-- The expected length is one byte wide: the high byte of an accepted length is 0 (R91). -/
theorem lenExpected_toNat_lt (c : Config) : c.lenExpected.toNat < 256 := by
  rcases variant_cases c with ⟨-, -, -, hexp⟩ | ⟨-, -, -, hexp⟩ <;> rw [hexp] <;> decide

/-- A word whose high byte is not 0 is no accepted length. -/
theorem be16_ne_lenExpected (c : Config) {h : Byte} (l : Byte) (hh : h ≠ 0) : be16 h l ≠ c.lenExpected := by
  intro hword
  have hsmall := lenExpected_toNat_lt c
  have hhigh : h.toNat ≠ 0 := fun h0 => hh (BitVec.eq_of_toNat_eq h0)
  rw [← hword, be16_toNat] at hsmall
  omega

/-- The step of a byte that completes a wrong length drops the candidate (R80). -/
theorem step_len_lo_bad {s : State} {h b : Byte} {now : Nat} {rest : List Transaction}
    (hp : s.pending = .sync false true b now :: rest) (hoff : s.acc.length = 3) (hhigh : s.acc[2]? = some h)
    (hlen : be16 h b ≠ s.cfg.lenExpected) :
    step s = .next { s with acc := [], ev := .errLength, pending := rest } := by
  have hcap := four_lt_cap s.cfg
  have hdec : decodeRx s.cfg s.acc b now = .ok (.rxLenLoBad b) := by
    simp [decodeRx, hoff, Memory.lengthMatches_of_read b hhigh, hlen]
  rw [step_of_byte hp (by omega) hdec]
  exact lenLoBadCompletes { s with pending := rest } h b hoff hhigh hlen

/-- Settles O27: a command starts with a start marker, so its first three bytes are stored; the third, the opcode, then
stands where a length has its high byte. -/
theorem commandLoopedBackFailsTheLength : Obligations.CommandLoopedBackFailsTheLength := by
  intro s op dl dh now hacc hp hop
  have hcap := four_lt_cap s.cfg
  have hstored := run_stores (s := s.present (presentBytes now ((commandBytes op dl dh).take 4)))
    (bs := [(sync1, now), (sync2, now), (op, now)]) (rest := [.sync false true dh now])
    (by rw [State.present_pending, hp]; rfl) (by simp [hacc]; omega)
    (Memory.acceptsAll_of_prefixOk (by rw [State.present_acc, hacc]; rfl)) (fun h => nomatch h)
  rw [State.present_acc, hacc] at hstored
  have hdropped := step_len_lo_bad (s := { s with
    acc := [sync1, sync2, op], ev := .none, pending := [.sync false true dh now] }) rfl rfl rfl
    (be16_ne_lenExpected s.cfg dh hop)
  refine (run_add 3 1 _ _ hstored).trans ((run_succ 0 _ _ hdropped).trans ?_)
  rw [run_zero, hp]

/-- The command checksum as a sum of words, in the order of R108. -/
theorem commandChecksum_eq (op dl dh : Byte) :
    commandChecksum op dl dh =
      (0x42 : Word16) + 0x4D + op.setWidth 16 + dh.setWidth 16 + dl.setWidth 16 := by
  simp only [commandChecksum, byteSum, add_zero, BitVec.add_assoc]
  rfl

/-- Settles O22: the answer of ENC, with its checksum written as R108's sum. -/
theorem encCompletes : Obligations.EncCompletes := by
  intro s op dl dh ck
  rw [exec_enc, commandBytes, commandChecksum_eq]
  rfl

/-- Settles O23: the answer of `ENC 0xE4, 1, 0`. -/
theorem wakeCompletes : Obligations.WakeCompletes := by
  intro s
  rw [exec_wake]
  exact encCompletes s opSleep 1 0

/-- Settles O24: the answer of `ENC OP_MODE, a, 0`; the two start bytes sum to 0x8F. -/
theorem setmodeCompletes : Obligations.SetmodeCompletes := by
  intro s active dl ck
  have hck : (0x42 : Word16) + 0x4D + s.cfg.opMode.setWidth 16 + (0 : Byte).setWidth 16 + dl.setWidth 16 = ck := by
    simp [ck]
  refine ⟨exec_setmode active s, ?_⟩
  rw [exec_setmode, ← hck]
  exact encCompletes s s.cfg.opMode dl 0

/-- The command checksum as a number: five bytes are too few for their sum to wrap (R109). -/
theorem commandChecksum_toNat (op dl dh : Byte) :
    (commandChecksum op dl dh).toNat = 0x42 + 0x4D + op.toNat + dh.toNat + dl.toNat := by
  have hsum : ([sync1, sync2, op, dh, dl].map BitVec.toNat).sum = 0x42 + 0x4D + op.toNat + dh.toNat + dl.toNat := by
    simp [sync1, sync2]
    omega
  rw [commandChecksum, byteSum_toNat, hsum]
  omega

/-- Settles O25: the bounds are those of three free bytes beside the start marker. -/
theorem commandChecksumNeverWraps : Obligations.CommandChecksumNeverWraps := by
  intro op dl dh
  have hsum := commandChecksum_toNat op dl dh
  have hmax : (commandChecksum op dl dh).toNat ≤ 908 := by omega
  refine ⟨hsum, by omega, hmax, ?_⟩
  rw [BitVec.extractLsb'_toNat, Nat.shiftRight_eq_div_pow]
  omega

/-- Settles O35: a name and the `ENC` it is short for run the same, and where `OP_MODE` is the sleep opcode, `SETMODE 1`
and `WAKE` are short for one `ENC`. -/
theorem canonicalSpellingRunsTheSame : Obligations.CanonicalSpellingRunsTheSame := by
  intro i s
  cases i with
  | enc op dl dh =>
    simp only [Instr.canonical]
    split_ifs with hwake hpassive hactive
    · obtain ⟨rfl, rfl, rfl⟩ := hwake
      exact exec_wake s
    · obtain ⟨rfl, rfl, rfl⟩ := hpassive
      exact exec_setmode false s
    · obtain ⟨rfl, rfl, rfl⟩ := hactive
      exact exec_setmode true s
    · rfl
  | setmode active =>
    cases active with
    | false => rfl
    | true =>
      simp only [Instr.canonical]
      split_ifs with hsleep
      · rw [exec_wake, exec_setmode, hsleep]
        rfl
      · rfl
  | _ => rfl

end Sys2Proof.Machine
end

section
/-! The obligations of 60_exceptions.md: the codes of the events (R117), the one event of each row of the synchronizer
(R118–R122), and recovery from the errors among them (R125). -/

namespace Sys2Proof.Machine

/-- An event's code gives back the event (R117). -/
@[simp] theorem Event.ofCode_code (e : Event) : Event.ofCode e.code = some e := by
  cases e <;> rfl

/-- A code that is reserved is no event's (R67). -/
theorem Event.code_ne_of_ofCode_eq_none (e : Event) {k : BitVec 3} (hk : Event.ofCode k = Option.none) :
    e.code ≠ k := by
  rintro rfl
  simp at hk

/-- Settles O44: the codes are those of the table, and `ev_code` shows the code of an event. -/
theorem eventCodes : Obligations.EventCodes := by
  have hreserved (s : State) {k : BitVec 3} (hk : Event.ofCode k = Option.none) : s.evCode ≠ k :=
    s.ev.code_ne_of_ofCode_eq_none hk
  exact ⟨rfl, rfl, rfl, rfl, rfl, fun s => ⟨hreserved s rfl, hreserved s rfl, hreserved s rfl⟩, Event.ofCode_code⟩

/-- The event that R117 gives a row: every row of the synchronizer has one, and no other row has (R118). -/
def rowEvent : Instr → Option Event
  | .rst => some .none
  | .idle => some .none
  | .rxSync1Hit => some .none
  | .rxSync1Miss _ => some .none
  | .rxSync2Hit => some .none
  | .rxSync2Miss _ => some .errSync2
  | .rxLenHi _ => some .none
  | .rxLenLoOk _ => some .none
  | .rxLenLoBad _ => some .errLength
  | .rxBody _ => some .none
  | .rxLastOk _ _ => some .frameOk
  | .rxLastBad _ => some .errChecksum
  | .update _ _ => Option.none
  | .snap _ => Option.none
  | .enc _ _ _ => Option.none
  | .wake => Option.none
  | .setmode _ => Option.none

/-- A row of the synchronizer writes its event (R118). -/
theorem exec_writes_rowEvent {i : Instr} {s t : State} (hrow : i = .rst ∨ i = .idle ∨ ∃ b, i.rxByte = some b)
    (h : exec i s = .next t) : rowEvent i = some t.ev := by
  cases i with
  | rst | idle => cases h; rfl
  | rxSync1Hit | rxSync1Miss | rxSync2Hit | rxSync2Miss | rxLenHi | rxLenLoOk | rxLenLoBad | rxBody | rxLastOk
  | rxLastBad =>
    obtain ⟨-, rfl⟩ := (onRow_eq_next _ _ _ _).mp h
    rfl
  | update | snap | enc | wake | setmode => simp [Instr.rxByte] at hrow

/-- A step of the synchronizer writes the event of the row it selects (R118). -/
theorem step_writes_rowEvent {s t : State} {x : Transaction} {rest : List Transaction} {i : Instr}
    (hp : s.pending = x :: rest) (hx : x.isSync = true) (hdec : decode s.cfg (x.selector s.acc) = .ok i)
    (h : step s = .next t) : rowEvent i = some t.ev := by
  rw [step_of_decode_ok hp hdec] at h
  exact exec_writes_rowEvent (decode_selector_sync hx hdec) h

/-- `ERR_SYNC2` is the event of one row (R119). -/
theorem rowEvent_eq_errSync2 (i : Instr) : rowEvent i = some .errSync2 ↔ ∃ b, i = .rxSync2Miss b := by
  cases i <;> simp [rowEvent]

/-- `ERR_LENGTH` is the event of one row (R120). -/
theorem rowEvent_eq_errLength (i : Instr) : rowEvent i = some .errLength ↔ ∃ b, i = .rxLenLoBad b := by
  cases i <;> simp [rowEvent]

/-- `ERR_CHECKSUM` is the event of one row (R121). -/
theorem rowEvent_eq_errChecksum (i : Instr) : rowEvent i = some .errChecksum ↔ ∃ b, i = .rxLastBad b := by
  cases i <;> simp [rowEvent]

/-- `FRAME_OK` is the event of one row (R122). -/
theorem rowEvent_eq_frameOk (i : Instr) : rowEvent i = some .frameOk ↔ ∃ b now, i = .rxLastOk b now := by
  cases i <;> simp [rowEvent]

/-- Settles O43: the event after the step is the row's, and each of the four is the event of its own row. -/
theorem eventNamesTheRowOfItsStep : Obligations.EventNamesTheRowOfItsStep := by
  intro s t x rest i hp hx hdec h
  have hev (e : Event) : t.ev = e ↔ rowEvent i = some e := by
    rw [step_writes_rowEvent hp hx hdec h, Option.some_inj]
  exact ⟨(hev _).trans (rowEvent_eq_errSync2 i), (hev _).trans (rowEvent_eq_errLength i),
    (hev _).trans (rowEvent_eq_errChecksum i), (hev _).trans (rowEvent_eq_frameOk i)⟩

/-- A row whose event is an error has recovery as its effect (R125). -/
theorem exec_of_error_row {i : Instr} {s t : State} {e : Event} {k : ErrorKind} (hev : rowEvent i = some e)
    (herr : e.errorKind = some k) (h : exec i s = .next t) : t = s.recover e := by
  cases i with
  | rxSync2Miss | rxLenLoBad | rxLastBad =>
    cases hev
    exact ((onRow_eq_next _ _ _ _).mp h).2
  | rst | idle | rxSync1Hit | rxSync1Miss | rxSync2Hit | rxLenHi | rxLenLoOk | rxBody | rxLastOk =>
    cases hev
    cases herr
  | update | snap | enc | wake | setmode => cases hev

/-- Settles O29: the three rows are those of an error, of the kind R116 gives it, and recovery writes the accumulator
and the event only. -/
theorem recoveryFrame : Obligations.RecoveryFrame := by
  intro s t b i e k hrow h
  obtain ⟨hev, herr⟩ : rowEvent i = some e ∧ e.errorKind = some k := by
    rcases hrow with ⟨rfl, rfl, rfl⟩ | ⟨rfl, rfl, rfl⟩ | ⟨rfl, rfl, rfl⟩ <;> exact ⟨rfl, rfl⟩
  obtain rfl := exec_of_error_row hev herr h
  exact ⟨rfl, (phase_eq_seekStart1 _ _).mpr rfl, Memory.read_clear, rfl, herr, rfl, rfl, rfl, rfl⟩

end Sys2Proof.Machine
end

section
/-! The obligations of 70_reset_and_hazards.md on reset (R135, R137) and on the sentinel (R142). -/

namespace Sys2Proof.Machine

/-- Settles O3: RST has no condition. -/
theorem rstCompletesAndRestoresReset : Obligations.RstCompletesAndRestoresReset := fun _ => rfl

/-- Settles O4: the port `rst` selects RST whatever stands beside it, so the byte is on no path to the state. -/
theorem resetDropsThePresentedByte : Obligations.ResetDropsThePresentedByte := by
  intro s rxValid b now rest hp
  rw [step_of_decode_ok hp (decode_rst s.cfg s.acc rxValid b now)]
  exact rstCompletesAndRestoresReset { s with pending := rest }

/-- Settles O21: the pair stored has the clock value of its step, and no-data is a timestamp equal to the sentinel. -/
theorem sentinelCollisionReadsAsNoData : Obligations.SentinelCollisionReadsAsNoData := by
  intro s t b now h
  obtain ⟨-, rfl⟩ := (exec_rxLastOk_eq_next b now s t).mp h
  exact ⟨rfl, beq_iff_eq⟩

end Sys2Proof.Machine
end

section
/-! Runs of a candidate that a byte ends: the bytes before it are stored, and the row of the ending byte decides
(R85, R145, R146). -/

namespace Sys2Proof.Machine

/-- A run of one step answers what the step answers. -/
theorem run_one (s : State) : run 1 s = step s := by
  simp only [run]
  cases step s <;> rfl

/-- `run_stores` where the event is not asked for: there may be no byte, and then the event stays. -/
theorem run_stores_bytes {s : State} {bs : List (Byte × Nat)} {rest : List Transaction}
    (hp : s.pending = presentTimed bs ++ rest) (hroom : s.acc.length + bs.length < s.cfg.cap)
    (hall : s.acc.AcceptsAll s.cfg (bs.map (·.1))) :
    ∃ ev, run bs.length s = .next { s with acc := s.acc ++ bs.map (·.1), ev := ev, pending := rest } := by
  cases bs with
  | nil =>
    obtain ⟨cfg, acc, store, ev, pending, replies⟩ := s
    cases hp
    exact ⟨ev, by simp⟩
  | cons p bs => exact ⟨.none, run_stores hp hroom hall (fun h => nomatch h)⟩

/-- Bytes of which all but the last are accepted: the run ends with the step of the last one, behind the others. -/
theorem run_to_last_byte {s : State} {bs : List (Byte × Nat)} {init : List Byte} {b : Byte} {rest : List Transaction}
    (hp : s.pending = presentTimed bs ++ rest) (hbytes : bs.map (·.1) = init ++ [b])
    (hroom : s.acc.length + init.length < s.cfg.cap) (hall : s.acc.AcceptsAll s.cfg init) :
    ∃ ev now, run bs.length s =
      step { s with acc := s.acc ++ init, ev := ev, pending := .sync false true b now :: rest } := by
  obtain ⟨before, _, rfl, rfl, hlast⟩ := List.map_eq_append_iff.mp hbytes
  obtain ⟨⟨b, now⟩, rfl, rfl⟩ := List.map_eq_singleton_iff.mp hlast
  rw [List.length_map] at hroom
  obtain ⟨ev, hstored⟩ := run_stores_bytes (rest := .sync false true b now :: rest)
    (by rw [hp]; simp [presentTimed]) hroom hall
  exact ⟨ev, now, by rw [List.length_append, run_add _ _ _ _ hstored]; exact run_one _⟩

/-- The step of a byte whose row reports an error recovers from it (R125). -/
theorem step_recovers {s : State} {b : Byte} {now : Nat} {rest : List Transaction} {i : Instr} {e : Event}
    {k : ErrorKind} (hp : s.pending = .sync false true b now :: rest) (hroom : s.acc.length < s.cfg.cap)
    (hdec : decodeRx s.cfg s.acc b now = .ok i) (hev : rowEvent i = some e) (herr : e.errorKind = some k) :
    step s = .next { s with acc := [], ev := e, pending := rest } := by
  obtain ⟨t, hexec⟩ := exec_completes (s := { s with pending := rest }) (decodeRx_wf hdec) (decodeRx_selected hdec)
  rw [step_of_byte hp hroom hdec, hexec, exec_of_error_row hev herr hexec]
  rfl

/-- A candidate whose last byte's row reports an error is dropped with all its bytes. -/
theorem run_recovers {s : State} {bs : List (Byte × Nat)} {init : List Byte} {b : Byte} {rest : List Transaction}
    {i : Instr} {e : Event} {k : ErrorKind} (hp : s.pending = presentTimed bs ++ rest)
    (hbytes : bs.map (·.1) = init ++ [b]) (hroom : s.acc.length + init.length < s.cfg.cap)
    (hall : s.acc.AcceptsAll s.cfg init) (hdec : ∀ now, decodeRx s.cfg (s.acc ++ init) b now = .ok i)
    (hev : rowEvent i = some e) (herr : e.errorKind = some k) :
    run bs.length s = .next { s with acc := [], ev := e, pending := rest } := by
  obtain ⟨ev, now, hrun⟩ := run_to_last_byte hp hbytes hroom hall
  rw [hrun, step_recovers rfl (by rwa [List.length_append]) (hdec now) hev herr]

/-- A second byte that is not the second start byte ends the candidate (R77). -/
theorem decodeRx_sync2_miss {c : Config} {m : Memory} {b : Byte} (now : Nat) (hoff : m.length = 1) (hb : b ≠ sync2) :
    decodeRx c m b now = .ok (.rxSync2Miss b) := by
  simp [decodeRx, hoff, hb]

/-- A low length byte that completes another length than the expected one ends the candidate (R80). -/
theorem decodeRx_len_lo_bad {c : Config} {m : Memory} {h b : Byte} (now : Nat) (hoff : m.length = 3)
    (hhigh : m[2]? = some h) (hlen : be16 h b ≠ c.lenExpected) : decodeRx c m b now = .ok (.rxLenLoBad b) := by
  simp [decodeRx, hoff, Memory.lengthMatches_of_read b hhigh, hlen]

/-- A last byte that completes a frame with another checksum than its sum ends the candidate (R88). -/
theorem decodeRx_last_bad {c : Config} {m : Memory} {b : Byte} (now : Nat) (hlast : m.length = c.cap - 1)
    (hsum : Memory.checksumMatches c (m ++ [b]) = false) : decodeRx c m b now = .ok (.rxLastBad b) := by
  rw [decodeRx_last b now hlast, Memory.push, if_neg (by simp [hsum])]

/-- A rejected candidate from offset 0 is never looked at again: what follows it runs as if it alone had been presented,
but for the event (R85, R145). -/
theorem drain_recovers {s : State} {bs : List (Byte × Nat)} {init : List Byte} {b : Byte} {i : Instr} {e : Event}
    {k : ErrorKind} (rest : List Transaction) (hacc : s.acc = []) (hp : s.pending = [])
    (hbytes : bs.map (·.1) = init ++ [b]) (hroom : init.length < s.cfg.cap) (hok : prefixOk s.cfg init = true)
    (hdec : ∀ now, decodeRx s.cfg init b now = .ok i) (hev : rowEvent i = some e) (herr : e.errorKind = some k) :
    drain (s.present (presentTimed bs ++ rest)) = drain (State.present { s with ev := e } rest) := by
  have hdropped : run bs.length (s.present (presentTimed bs ++ rest)) =
      .next (State.present { s with ev := e } rest) := by
    rw [run_recovers (s := s.present _) (rest := rest) (by simp [hp]) hbytes (by simpa [hacc] using hroom)
      (Memory.acceptsAll_of_prefixOk (by simpa [hacc] using hok)) (by simpa [hacc] using hdec) hev herr]
    simp [State.present, hacc, hp]
  rw [drain_present hp, List.length_append, length_presentTimed, run_add _ _ _ _ hdropped,
    drain_present (s := { s with ev := e }) hp]

/-- A sequence of bytes that is not empty has a last one. -/
theorem exists_init_last {bytes : List Byte} {n : Nat} (h : bytes.length = n + 1) :
    ∃ init b, bytes = init ++ [b] ∧ init.length = n := by
  have hne : bytes ≠ [] := by rintro rfl; cases h
  exact ⟨_, _, (List.dropLast_append_getLast hne).symm, by rw [List.length_dropLast, h, Nat.add_sub_cancel]⟩

/-- Settles O50: the ending byte stands at offset 1, 3 or `CAP - 1`, and the bytes before it are as R17 asks. -/
theorem resyncBlindSpots : Obligations.ResyncBlindSpots := by
  intro s bs rest hacc hp
  have hcap := four_lt_cap s.cfg
  refine ⟨fun x hbytes hx => ?_, fun h l hbytes hlen => ?_, fun hfull hok hsum => ?_⟩
  · exact drain_recovers (init := [sync1]) rest hacc hp hbytes (by simp; omega) rfl
      (decodeRx_sync2_miss · rfl hx) rfl rfl
  · exact drain_recovers (init := [sync1, sync2, h]) rest hacc hp hbytes (by simp; omega) rfl
      (decodeRx_len_lo_bad · rfl rfl hlen) rfl rfl
  · obtain ⟨init, b, hbytes, hlen⟩ := exists_init_last (bytes := bs.map (·.1)) (n := s.cfg.cap - 1) (by simp; omega)
    rw [hbytes] at hok hsum
    exact drain_recovers rest hacc hp hbytes (by omega) (prefixOk_of_append hok) (decodeRx_last_bad · hlen hsum) rfl rfl

/-- Bytes behind the header of a candidate that fill its frame: the checksum of the whole decides between a valid frame
and a rejected one (R84, R86). -/
theorem run_to_full_frame {s : State} {bs : List (Byte × Nat)} (hbody : 4 ≤ s.acc.length)
    (hroom : s.acc.length < s.cfg.cap) (hp : s.pending = presentTimed bs)
    (hfull : s.acc.length + bs.length = s.cfg.cap) :
    (Memory.checksumMatches s.cfg (s.acc ++ bs.map (·.1)) = true →
      ∃ pair, run bs.length s = .next { s with acc := [], store := pair, ev := .frameOk, pending := [] }) ∧
    (Memory.checksumMatches s.cfg (s.acc ++ bs.map (·.1)) = false →
      run bs.length s = .next { s with acc := [], ev := .errChecksum, pending := [] }) := by
  have hp' : s.pending = presentTimed bs ++ [] := by rw [hp, List.append_nil]
  obtain ⟨init, b, hbytes, hlen⟩ := exists_init_last (bytes := bs.map (·.1))
    (n := s.cfg.cap - 1 - s.acc.length) (by rw [List.length_map]; omega)
  have hall := Memory.acceptsAll_of_body s.cfg init hbody
  have hlast : (s.acc ++ init).length + 1 = s.cfg.cap := by rw [List.length_append]; omega
  rw [hbytes, ← List.append_assoc]
  refine ⟨fun hsum => ?_, fun hsum => ?_⟩
  · obtain ⟨ev, now, hrun⟩ := run_to_last_byte hp' hbytes (by omega) hall
    exact ⟨_, hrun.trans (step_last_ok rfl hlast hsum)⟩
  · exact run_recovers hp' hbytes (by omega) hall (decodeRx_last_bad · (by omega) hsum) rfl rfl

/-- The low byte of an accepted length is no start byte (R91). -/
theorem be16_sync1_ne_lenExpected (c : Config) (h : Byte) : be16 h sync1 ≠ c.lenExpected := by
  intro hword
  have hlow := be16_setWidth h sync1
  rw [hword] at hlow
  rcases variant_cases c with ⟨-, -, -, hexp⟩ | ⟨-, -, -, hexp⟩
  all_goals
    rw [hexp] at hlow
    exact absurd hlow (by decide)

/-- What bytes at one clock value present to an empty queue, as timed bytes. -/
theorem present_presentBytes_pending {s : State} (now : Nat) (bytes : List Byte) (hp : s.pending = []) :
    (s.present (presentBytes now bytes)).pending = presentTimed (bytes.map (·, now)) := by
  rw [State.present_pending, hp, List.nil_append, presentBytes_eq_presentTimed]

/-- The bytes of bytes at one clock value. -/
theorem map_fst_timed (now : Nat) (bytes : List Byte) : (bytes.map (·, now)).map (·.1) = bytes := by
  simp [Function.comp_def]

/-- Bytes at one clock value, alone in the queue, whose last one has a row that reports an error. -/
theorem run_present_recovers {s : State} {init : List Byte} {b : Byte} {i : Instr} {e : Event} {k : ErrorKind}
    (now : Nat) (hp : s.pending = []) (hroom : s.acc.length + init.length < s.cfg.cap)
    (hall : s.acc.AcceptsAll s.cfg init) (hdec : ∀ now, decodeRx s.cfg (s.acc ++ init) b now = .ok i)
    (hev : rowEvent i = some e) (herr : e.errorKind = some k) :
    run (init.length + 1) (s.present (presentBytes now (init ++ [b]))) = .next { s with acc := [], ev := e } := by
  have hrun := run_recovers (s := s.present (presentBytes now (init ++ [b]))) (rest := [])
    (by rw [present_presentBytes_pending now _ hp, List.append_nil]) (map_fst_timed now _) hroom hall hdec hev herr
  rw [List.length_map, List.length_append, List.length_singleton] at hrun
  rw [hrun]
  simp [State.present, hp]

/-- Settles O51: a frame begins with the start bytes. Behind one byte the first is no second start byte, and behind two
or three they complete a length that is not the expected one; behind a candidate's header a frame's bytes are body. -/
theorem frameAfterTruncatedCandidate : Obligations.FrameAfterTruncatedCandidate := by
  intro s fs now hinv hp hfs
  obtain ⟨-, ⟨hroom, -⟩, -⟩ := s.inv_iff.mp hinv
  have hcap := four_lt_cap s.cfg
  simp only [State.off_eq]
  refine ⟨fun hoff => ?_, fun hoff => ?_, fun hoff => ?_, fun hbody => ?_⟩
  · exact run_present_recovers (init := []) (b := sync1) now hp hroom trivial
      (decodeRx_sync2_miss · (by simpa using hoff) (by decide)) rfl rfl
  · exact run_present_recovers (init := [sync1]) (b := sync2) now hp (by simp; omega)
      ⟨⟨by omega, by omega, by omega⟩, trivial⟩
      (decodeRx_len_lo_bad (h := sync1) · (by simp [hoff]) (by simp [← hoff])
        (be16_ne_lenExpected s.cfg _ (by decide))) rfl rfl
  · exact run_present_recovers (init := []) (b := sync1) now hp hroom trivial
      (decodeRx_len_lo_bad · (by simpa using hoff) (List.getElem?_eq_getElem (by simp [hoff]))
        (be16_sync1_ne_lenExpected s.cfg _)) rfl rfl
  · have hlen : ((frame s.cfg fs).take (s.cfg.cap - s.acc.length)).length = s.cfg.cap - s.acc.length := by
      rw [List.length_take, frame_length s.cfg fs hfs]
      omega
    obtain ⟨hvalid, hbad⟩ := run_to_full_frame (s := s.present _) hbody hroom
      (present_presentBytes_pending now ((frame s.cfg fs).take (s.cfg.cap - s.acc.length)) hp)
      (by rw [State.present_acc, State.present_cfg, List.length_map, hlen]; omega)
    rw [map_fst_timed, List.length_map, hlen] at hvalid hbad
    cases hsum : Memory.checksumMatches s.cfg (s.acc ++ (frame s.cfg fs).take (s.cfg.cap - s.acc.length)) with
    | true =>
      obtain ⟨pair, hrun⟩ := hvalid hsum
      exact ⟨_, hrun, rfl, fun _ => rfl, Bool.noConfusion⟩
    | false => exact ⟨_, hbad hsum, rfl, Bool.noConfusion, fun _ => ⟨rfl, rfl⟩⟩

end Sys2Proof.Machine
end

section
/-! Snapshots and encoder evaluations leave the block alone (R47, R107, R152): two states whose blocks agree still agree
after the same step of the synchronizer, and a step of a reader or of the encoder changes nothing of what they agree
in. -/

namespace Sys2Proof.Machine

/-- The states agree in the parameters and in the block's own state (R13). -/
structure SameBlock (s u : State) : Prop where
  cfg : u.cfg = s.cfg
  block : u.block = s.block

/-- States with the same block differ on the host's side only. -/
theorem SameBlock.eq_with {s u : State} (h : SameBlock s u) :
    u = { s with pending := u.pending, replies := u.replies } := by
  obtain ⟨cfg, acc, store, ev, pending, replies⟩ := u
  obtain ⟨rfl, ⟨⟩⟩ := h
  rfl

/-- No row of the synchronizer looks at the host's side. -/
theorem SameBlock.exec {s u t : State} {i : Instr} (h : SameBlock s u)
    (hrow : i = .rst ∨ i = .idle ∨ ∃ b, i.rxByte = some b) (hexec : Machine.exec i s = .next t) :
    ∃ v, Machine.exec i u = .next v ∧ SameBlock t v := by
  rw [h.eq_with]
  cases i with
  | rst | idle => cases hexec; exact ⟨_, rfl, rfl, rfl⟩
  | rxSync1Hit | rxSync1Miss | rxSync2Hit | rxSync2Miss | rxLenHi | rxLenLoOk | rxLenLoBad | rxBody | rxLastOk
  | rxLastBad =>
    obtain ⟨hsel, rfl⟩ := (onRow_eq_next _ _ _ _).mp hexec
    exact ⟨_, onRow_selected _ _ _ hsel, rfl, rfl⟩
  | update | snap | enc | wake | setmode => simp [Instr.rxByte] at hrow

/-- The same step of the synchronizer presented to states with the same block. -/
theorem SameBlock.step {s u t : State} {x : Transaction} {rest rest' : List Transaction} (h : SameBlock s u)
    (hx : x.isSync = true) (hs : s.pending = x :: rest) (hu : u.pending = x :: rest')
    (hstep : Machine.step s = .next t) : ∃ v, Machine.step u = .next v ∧ SameBlock t v := by
  obtain ⟨i, hdec, hexec⟩ := step_eq_next hstep
  rw [State.fetch_cons s x rest hs] at hdec hexec
  have hfetched : SameBlock { s with pending := rest } { u with pending := rest' } := ⟨h.cfg, h.block⟩
  obtain ⟨v, hv, hsame⟩ := hfetched.exec (decode_selector_sync hx hdec) hexec
  obtain ⟨hacc, -⟩ := Prod.mk.inj h.block
  exact ⟨v, by rw [step_of_decode_ok hu (by rw [h.cfg, hacc]; exact hdec), hv], hsame⟩

/-- The step of a presented encoder evaluation answers the command and takes the evaluation from the queue (R108). -/
theorem step_enc {s : State} {op dl dh : Byte} {rest : List Transaction} (hp : s.pending = .enc op dl dh :: rest) :
    step s = .next { s with pending := rest, replies := s.replies ++ [.command (commandBytes op dl dh)] } := by
  rw [step_of_decode_ok hp (congrArg _ (decodeEnc_encWord s.cfg op dl dh)),
    canonicalSpellingRunsTheSame _ { s with pending := rest }, exec_enc]
  rfl

/-- A step of a reader or of the encoder leaves the block as it was (R47, R107). -/
theorem step_not_sync {s t : State} {x : Transaction} {rest : List Transaction} (hp : s.pending = x :: rest)
    (hvalid : x.valid s.cfg = true) (hx : x.isSync = false) (h : step s = .next t) : SameBlock t s := by
  cases x with
  | sync => cases hx
  | snap r => cases h.symm.trans (step_snap hp (of_decide_eq_true hvalid)); exact ⟨rfl, rfl⟩
  | enc op dl dh => cases h.symm.trans (step_enc hp); exact ⟨rfl, rfl⟩

/-- A drain of what is presented, beside the drain of its synchronizer steps alone. -/
theorem drain_filter_sync {s u : State} (hs : s.Ready) (h : SameBlock s u)
    (hu : u.pending = s.pending.filter (·.isSync)) :
    ∃ t v, drain s = .next t ∧ drain u = .next v ∧ SameBlock t v := by
  induction hp : s.pending generalizing s u with
  | nil =>
    rw [hp, List.filter_nil] at hu
    exact ⟨s, u, by rw [drain, hp]; rfl, by rw [drain, hu]; rfl, h⟩
  | cons x rest ih =>
    obtain ⟨s', hstep, hs'⟩ := hs.step
    have hp' : s'.pending = rest := by rw [step_pending hstep, hp, List.tail_cons]
    rw [hp, List.filter_cons] at hu
    rw [drain_cons hp hstep]
    cases hx : x.isSync with
    | true =>
      rw [hx, if_pos rfl] at hu
      obtain ⟨u', hstep', hsame⟩ := h.step hx hp hu hstep
      rw [drain_cons hu hstep']
      exact ih hs' hsame (by rw [step_pending hstep', hu, List.tail_cons, hp']) hp'
    | false =>
      rw [hx, if_neg Bool.false_ne_true] at hu
      have hsame := step_not_sync hp (hs.valid x (hp ▸ List.mem_cons_self)) hx hstep
      exact ih hs' ⟨h.cfg.trans hsame.cfg, h.block.trans hsame.block⟩ (by rw [hu, hp']) hp'

/-- Settles O53: the two drains begin in states that differ in the queue only. -/
theorem readersAndEncoderNeverDisturbTheBlock : Obligations.ReadersAndEncoderNeverDisturbTheBlock := by
  intro s ts hwf hp hvalid
  have hready : (s.present ts).Ready := ⟨State.room_of_wf hwf, by simpa [hp] using hvalid⟩
  obtain ⟨t, u, ht, hu, hsame⟩ := drain_filter_sync hready (u := s.present (ts.filter (·.isSync)))
    ⟨rfl, rfl⟩ (by simp [hp])
  exact ⟨t, u, ht, hu, hsame.block.symm⟩

end Sys2Proof.Machine
end
